-- ==== Sys2Proof/Word.lean ====
section
/-! DEFINITION. The words of this hardware (00_scope.md section 6): bits, bytes, RawCodes and FramedWords.
All values are unsigned. -/

namespace Sys2Proof

/-- `u1`: the level of a pin, a parity bit (00_scope.md section 6). -/
abbrev Bit := BitVec 1

/-- Eight bits, the unit in which the decoder is handed an encoding. -/
abbrev Byte := BitVec 8

/-- `u8`: a RawCode, an opaque payload (30_encoding.md R61). -/
abbrev RawCode := BitVec 8

/-- `u11`: a FramedWord, a queue entry, the content of `osr[c]` (R60, R62). -/
abbrev FramedWord := BitVec 11

/-- `v[i]`: bit `i` of `v`, numbered from 0 at the least significant end (00_scope.md section 6). -/
def bitAt {n : Nat} (v : BitVec n) (i : Nat) : Bit := BitVec.ofBool (v.getLsbD i)

/-- `popcount(v)`: the number of 1-bits of `v` (00_scope.md section 6). -/
def popcount {n : Nat} (v : BitVec n) : Nat := (List.range n).countP fun i => v.getLsbD i

end Sys2Proof
end

