-- ==== Sys2Proof/Config.lean ====
section
/-! DEFINITION. The channels, the constants of 00_scope.md R3 and of 10_state.md R22 to R26, the parameters the
source leaves open (R4), and the free values. A free value is an `opaque` constant without a body: nothing can be
proved of the value it has. -/

namespace Sys2Proof

/-- The two channels, statically assigned (10_state.md R10); `KBD = 0`, `MSE = 1` where a number is wanted (D20). -/
inductive Channel where
  | kbd
  | mse
deriving DecidableEq, Repr, Inhabited

/-- The other channel. -/
def Channel.other : Channel → Channel
  | .kbd => .mse
  | .mse => .kbd

/-- One value for each channel, as plain data. -/
structure PerChannel (α : Type) where
  kbd : α
  mse : α
deriving DecidableEq, Repr

/-- The value of channel `c`. -/
def PerChannel.get {α : Type} (p : PerChannel α) : Channel → α
  | .kbd => p.kbd
  | .mse => p.mse

/-- The startup agent's three events (70_reset_and_hazards.md R152). -/
inductive StartupEvent where
  | start (c : Channel)
  | ctlHigh
deriving DecidableEq, Repr, Inhabited

/-- Whose turn it is. Steps are atomic and interleaved, in no fixed order (60_exceptions.md R135, R143). -/
inductive Turn where
  /-- The startup agent tries one of its events (R152); with `STARTUP_OK` false it halts instead (R137). -/
  | startup (ev : StartupEvent)
  /-- `tick(c)`, the only step of engine `c` (41_serial_clock_engine.md R91). -/
  | tick (c : Channel)
  /-- One system-clock period at engine `c`'s divider, the timed refinement (R140). DESIGN CHOICE, log 15. -/
  | sysClk (c : Channel)
  /-- The queue slot is freed before the SHIFT that needs the word, at a tick of the window R105 admits (U8).
  DESIGN CHOICE, log 8. -/
  | earlyPop (c : Channel)
  /-- The producer tries the operation at the head of its script (42_producer_interface.md R110). -/
  | produce
deriving DecidableEq, Repr, Inhabited

/-- The parameters of an instance that the source leaves to the environment (00_scope.md R4). None changes after
startup (R6). The pin identifiers need no numbers (R25): see `Pin` in Machine/Ports.lean. `F_SYS`, a
real that no step reads, is `Config.fSys`. -/
structure Params where
  /-- `QDEPTH`, entries of one queue (R26, R41). -/
  qDepth : Nat
  /-- `DIV`, system-clock periods of one tick (R21). -/
  div : Nat
  /-- `CLK_RESET[c]` (R16, D9). -/
  clkReset : PerChannel Bit
  /-- `DAT_RESET[c]` (R17, D9). -/
  datReset : PerChannel Bit
  /-- `CTL_RESET` (R27, D24). -/
  ctlReset : Bit
  /-- `STARTUP_OK` (R137, D10). -/
  startupOk : Bool
deriving DecidableEq, Repr

namespace Config

/-- `CODE_W` (R3). -/
def codeW : Nat := 8
/-- `FRAME_W`, and the refill threshold `THRESH` (R3, R22). -/
def thresh : Nat := 11
/-- `NCHAN` (R3). -/
def nChan : Nat := 2
/-- `NSTEP` (R3, R24). -/
def nStep : Nat := 3
/-- `DLY_CLKH` (R3, R23). -/
def dlyClkh : Nat := 0
/-- `DLY_SHIFT`, decided 0 (R4, R23, D2). -/
def dlyShift : Nat := 0
/-- `DLY_CLKL` (R3, R23). -/
def dlyClkl : Nat := 1
/-- `BITS_PER_SHIFT` (R3, R22). -/
def bitsPerShift : Nat := 1

/-- One less than this instance's `QDEPTH`, which is at least 1 (R4). OPEN, log 3. -/
opaque qDepthPred : Nat
/-- One less than this instance's `DIV`, which is positive (R4). OPEN, log 3. -/
opaque divPred : Nat
/-- This instance's `F_SYS` in hertz, a real number (R4); that it is positive is `fSysWf` (WellFormed.lean). Only
Machine/Timing.lean speaks of it. OPEN, log 3 and 16. -/
opaque fSys : ℝ
/-- This instance's `CLK_RESET[c]` (R4). OPEN, log 3. -/
opaque clkReset : Channel → Bit
/-- This instance's `DAT_RESET[c]` (R4). OPEN, log 3. -/
opaque datReset : Channel → Bit
/-- This instance's `CTL_RESET` (R4). OPEN, log 3. -/
opaque ctlReset : Bit
/-- This instance's `STARTUP_OK` (R4). OPEN, log 3. -/
opaque startupOk : Bool

/-- The parameters of the instance whose power-up state `State.reset` is. -/
def params : Params where
  qDepth := qDepthPred + 1
  div := divPred + 1
  clkReset := ⟨clkReset .kbd, clkReset .mse⟩
  datReset := ⟨datReset .kbd, datReset .mse⟩
  ctlReset := ctlReset
  startupOk := startupOk

/-- What `osr[c]` holds before the first refill: any value (93_implementation_defined.md U1). Free value, log 6. -/
opaque osrInit : Channel → FramedWord

/-- What the producer drives on `code_i` before its first FRAME: not given by the spec. Free value, log 7. -/
opaque codeInit : RawCode

/-- Whose turn it is when the schedule is empty: any interleaving (R135, U14 to U16). Free value, log 1. -/
opaque turn : Nat → Turn

end Config

end Sys2Proof
end

