-- ==== Sys2Proof/Syntax.lean ====
section
/-! DEFINITION. The instructions: one constructor per row of spec/opcode_table.json (30_encoding.md R65, R67), the
micro-program they stand in, and the places an encoding can be presented at. -/

namespace Sys2Proof

/-- The five operations of the hardware after startup (60_exceptions.md R146). A micro-step has no operand of its own
(R92, R93, R96): its channel names the engine that runs it. DESIGN CHOICE, log 9. -/
inductive Instr where
  /-- CLKH, micro-step 0 (R92). -/
  | clkh (c : Channel)
  /-- SHIFT, micro-step 1 (R93, R94, R95). -/
  | shift (c : Channel)
  /-- CLKL, micro-step 2 (R96). -/
  | clkl (c : Channel)
  /-- FRAME, the Frame Encoder (R80). -/
  | frame (code : RawCode)
  /-- ENQ, enqueue one word on one channel (R111). -/
  | enq (c : Channel) (w : FramedWord)
deriving DecidableEq, Repr

/-- The mnemonic of R70, as the opcode table spells it. -/
def Instr.mnemonic : Instr → String
  | .clkh _ => "CLKH"
  | .shift _ => "SHIFT"
  | .clkl _ => "CLKL"
  | .frame _ => "FRAME"
  | .enq _ _ => "ENQ"

/-- What a micro-step does: format US, fields `op`, `val`, `nbits` (R64). -/
inductive MicroOp where
  | setClk (val : Bit)
  | shiftOut (nbits : Nat)
deriving DecidableEq, Repr

/-- A row of the micro-program: format US (R64). -/
structure MicroRow where
  op : MicroOp
  delay : Nat
deriving DecidableEq, Repr

/-- The micro-program, fixed and identical in both channels (R65, R54). -/
def microProgram : Fin 3 → MicroRow
  | 0 => ⟨.setClk 1, Config.dlyClkh⟩
  | 1 => ⟨.shiftOut Config.bitsPerShift, Config.dlyShift⟩
  | 2 => ⟨.setClk 0, Config.dlyClkl⟩

/-- The index after `k`: 0, 1, 2 and back to 0 (R24, R65). -/
def nextIndex (k : Fin 3) : Fin 3 := k + 1

/-- Where an encoding is presented, which is what tells a selector, a RawCode and a queue entry apart (R66, R67, R115). -/
inductive Source where
  /-- the micro-program store of engine `c`, read through `upc[c]` (R40, R66) -/
  | store (c : Channel)
  /-- the port `code_i` (R115), format RC (R61) -/
  | codePort
  /-- the port `enq_data_i[c]` (R115), format QE (R62) -/
  | enqPort (c : Channel)
deriving DecidableEq, Repr

end Sys2Proof
end

