-- ==== Sys2Proof/WellFormed.lean ====
section
/-! DEFINITION. What a legal instruction, selector, queue entry, frame and parameter record are (30_encoding.md R68,
R72; 00_scope.md R4). -/

namespace Sys2Proof

/-- Every operand value is legal: 256 RawCodes, 2048 queue entries, two channels, three micro-steps (R68). The types of
the constructors hold nothing else, so the check refuses no term. -/
def Instr.wf : Instr → Bool
  | .clkh _ => true
  | .shift _ => true
  | .clkl _ => true
  | .frame _ => true
  | .enq _ _ => true

/-- A two-bit selector of a micro-step is legal when it is 0, 1 or 2 (R66, R68). -/
def selectorWf (k : Nat) : Bool := k < Config.nStep

/-- A number is a queue entry when it has 11 bits (R42, R62; U13). -/
def entryWf (n : Nat) : Bool := n < 2 ^ Config.thresh

/-- The parameters are legal: `QDEPTH` at least 1, `DIV` positive (R4). -/
def Params.wf (p : Params) : Bool := decide (1 ≤ p.qDepth) && decide (1 ≤ p.div)

/-- A system-clock frequency is legal: positive (R4). -/
def fSysWf (fSys : ℝ) : Prop := 0 < fSys

end Sys2Proof
end

