-- ==== Sys2Proof/Decode.lean ====
section
/-! DEFINITION. The decoder and the encoder (30_encoding.md R60 to R69).
The only code the hardware itself decodes is the two-bit selector of a micro-step (R66); FRAME and ENQ are port
transactions (R67, R115). An encoding is therefore bytes presented at a `Source`. The layout in bytes is the model's:
a format of 11 bits takes two bytes, the first holding bits 7 to 0, and the bits of a byte that no format bit fills
must be 0. DESIGN CHOICE, log 11. -/

namespace Sys2Proof

/-- Why bytes are no encoding. -/
inductive DecodeError where
  /-- The selector 3 selects nothing (R66, R68; U21). Safe: the model gives it no meaning. -/
  | noSuchStep
  /-- A bit outside the format is set, such as a bit above bit 10 of an entry (R42; U13). Safe. -/
  | bitOutsideFormat
  /-- Not the number of bytes of the format: there is one length of each (R69). Safe. -/
  | wrongLength
deriving DecidableEq, Repr

/-- The 11-bit word whose low byte is `lo` and whose bits 10 to 8 are the low bits of `hi`. -/
def wordOfBytes (lo hi : Byte) : FramedWord :=
  (hi.setWidth 11 <<< 8) ||| lo.setWidth 11

/-- The low byte of an 11-bit word. -/
def loByte (w : FramedWord) : Byte := w.setWidth 8

/-- Bits 10 to 8 of an 11-bit word, in the low bits of a byte. -/
def hiByte (w : FramedWord) : Byte := (w >>> 8).setWidth 8

/-- The three-row table of R65, indexed by a selector (R66). -/
def decodeSelector (c : Channel) (b : Byte) : Except DecodeError Instr :=
  if b = 0 then .ok (.clkh c)
  else if b = 1 then .ok (.shift c)
  else if b = 2 then .ok (.clkl c)
  else if b = 3 then .error .noSuchStep
  else .error .bitOutsideFormat

/-- The instruction presented as `bytes` at `src`. Total: what is no encoding is rejected by name. -/
def decode (src : Source) (bytes : List Byte) : Except DecodeError Instr :=
  match src, bytes with
  | .store c, [b] => decodeSelector c b
  | .codePort, [b] => .ok (.frame b)
  | .enqPort c, [lo, hi] =>
    if hi.toNat < 8 then .ok (.enq c (wordOfBytes lo hi)) else .error .bitOutsideFormat
  | _, _ => .error .wrongLength

/-- Bytes at the place they are presented. -/
structure Encoded where
  src : Source
  bytes : List Byte
deriving DecidableEq, Repr

/-- The encoding of an instruction: selector (R66), RC (R61) or QE (R62). -/
def encode : Instr → Encoded
  | .clkh c => ⟨.store c, [0]⟩
  | .shift c => ⟨.store c, [1]⟩
  | .clkl c => ⟨.store c, [2]⟩
  | .frame code => ⟨.codePort, [code]⟩
  | .enq c w => ⟨.enqPort c, [loByte w, hiByte w]⟩

/-- `par(code)` (40_frame_encoder.md R81): the exclusive-or of the eight bits, inverted, one bit wide. -/
def par (code : RawCode) : Bit :=
  ~~~ (bitAt code 0 ^^^ bitAt code 1 ^^^ bitAt code 2 ^^^ bitAt code 3
    ^^^ bitAt code 4 ^^^ bitAt code 5 ^^^ bitAt code 6 ^^^ bitAt code 7)

/-- `FRAME(code)`, format FW: stop 1, parity, code, start 0 (R60, R63, R80, R82). -/
def frame (code : RawCode) : FramedWord :=
  (1#11 <<< 10) ||| ((par code).setWidth 11 <<< 9) ||| (code.setWidth 11 <<< 1)

/-- The number that stands in the instruction's row of spec/opcode_table.json: the selector, the FRAME result in format
FW, or the queue entry. -/
def tableWord : Instr → Nat
  | .clkh _ => 0
  | .shift _ => 1
  | .clkl _ => 2
  | .frame code => (frame code).toNat
  | .enq _ w => w.toNat

/-- The table's FRAME row: bit 10 is 1 and bit 0 is 0 (match 0x400, mask 0x401). The parity bit is no part of the mask
and is not looked at. DESIGN CHOICE, log 10. -/
def isFrameRow (w : Nat) : Bool := decide (w < 2 ^ 11) && w.testBit 10 && !w.testBit 0

/-- A word of the opcode table as the bytes the hardware would be handed, with the place it would be handed them at.
One-byte rows are selectors, read at the keyboard engine's store (log 9). A two-byte word that fits the FRAME row is
FRAME of the code in bits 8 to 1, driven on `code_i`; every other is a queue entry at `enq_data_i[KBD]` (log 10). -/
def tableEncoded (nbits w : Nat) : Option Encoded :=
  if nbits ≤ 8 then
    if w < 2 ^ 8 then some ⟨.store .kbd, [BitVec.ofNat 8 w]⟩ else none
  else if nbits ≤ 16 ∧ w < 2 ^ 16 then
    if isFrameRow w then some ⟨.codePort, [BitVec.ofNat 8 (w / 2)]⟩
    else some ⟨.enqPort .kbd, [BitVec.ofNat 8 w, BitVec.ofNat 8 (w / 2 ^ 8)]⟩
  else none

/-- The instruction the decoder reads from a word of the opcode table, numbered as the table numbers its bits. -/
def decodeTableWord (nbits w : Nat) : Option Instr :=
  match tableEncoded nbits w with
  | none => none
  | some e => (decode e.src e.bytes).toOption

end Sys2Proof
end

