-- ==== Sys2Proof/Machine/State.lean ====
section
/-! DEFINITION. The state of the hardware (10_state.md R10 to R34) as plain data, the reasons a step can stop, and the
power-up state (70_reset_and_hazards.md R150, R151). -/

namespace Sys2Proof.Machine

/-- The elements of one channel (R10). Nothing of it is shared with the other channel (R101). -/
structure Engine where
  /-- `en[c]`: the engine is started (R11). -/
  en : Bool
  /-- `upc[c]`: the micro-step of the next non-delay tick; the value 3 is no state of the machine (R12, R68). -/
  upc : Fin 3
  /-- `dly[c]`: delay ticks still to be spent (R13). -/
  dly : Fin 2
  /-- `osr[c]`: the part of the current word not yet sent (R14). -/
  osr : FramedWord
  /-- `cnt[c]`: bits of the current word already shifted out; 11 is exhausted (R15). -/
  cnt : Fin 12
  /-- `clk[c]`: the level on the clock pin (R16). -/
  clk : Bit
  /-- `dat[c]`: the level on the data pin (R17). -/
  dat : Bit
  /-- `q[c]`: the TransmitQueue, head first (R18). -/
  q : List FramedWord
  /-- `phase[c]`: system-clock periods of the current tick that have elapsed, in the timed refinement (R30, R140). -/
  phase : Nat
  /-- The entry an early pop has taken and no SHIFT has loaded yet (R105, U8). The model's own. DESIGN CHOICE, log 8. -/
  early : Option FramedWord
  /-- A word has been loaded since START(c), so that an exhausted word is one that a SHIFT has exhausted and not the
  state START left: only then is there a window for an early pop (R105). The model's own. DEDUCED, log 27. -/
  begun : Bool
deriving DecidableEq, Repr

/-- A record of the diagnostic log: the value only, not its text (40_frame_encoder.md R86, D16). -/
inductive DiagRec where
  | info (code : RawCode)
  | debug (w : FramedWord)
deriving DecidableEq, Repr

/-- What the producer presents at the core's ports (42_producer_interface.md R115): a code on `code_i`, or a word on
`enq_data_i[c]` with `enq_valid_i[c]`. -/
inductive Request where
  | code (code : RawCode)
  | word (c : Channel) (w : FramedWord)
deriving DecidableEq, Repr

/-- The complete state: the tuple of R10, the configuration (section 7 of 10_state.md), and the model's own fields that
hold the inputs of the core. -/
structure State where
  /-- The keyboard channel. -/
  kbd : Engine
  /-- The mouse channel. -/
  mse : Engine
  /-- `ctl`: the level on the control-line pin (R27). -/
  ctl : Bit
  /-- `halted`: startup failed (R28). -/
  halted : Bool
  /-- `diag`: the write-only diagnostic log, oldest first (R29). -/
  diag : List DiagRec
  /-- The configuration fields and parameters, which no step writes (R4, R21, R26). Log 3. -/
  cfg : Params
  /-- CTLHIGH has happened: it happens exactly once (R152). The model's own. DESIGN CHOICE, log 14. -/
  ctlDone : Bool
  /-- The code last driven on the port `code_i` (R115). The model's own. DESIGN CHOICE, log 7. -/
  codeI : RawCode
  /-- The producer's remaining requests, the one in progress first (R110, R31). The model's own input. Log 2. -/
  script : List Request
  /-- The turns to come; when it is empty a free one is drawn (R135). The model's own input. Log 1. -/
  schedule : List Turn
  /-- How many turns have been drawn from `Config.turn`. The model's own counter. Log 1. -/
  drawn : Nat
deriving DecidableEq, Repr

/-- No operation of this hardware has a faulting case and nothing in the core can fail (60_exceptions.md R130, R138;
93_implementation_defined.md: "No item has the treatment `fault`"). The type is empty. -/
inductive Fault where
deriving DecidableEq, Repr

/-- Why a step is given no meaning. -/
inductive Refusal where
  /-- An instruction without a meaning: raised by an arm of `exec` only; no arm raises it. Safe. -/
  | notModelled (mnemonic : String)
  /-- ENQ on a channel that is not started: raised by `execEnq` (R111, D11, U9). Safe: the run stops. -/
  | enqNotStarted (c : Channel)
  /-- ENQ after a failed startup: raised by `execEnq` (R111, R137, U9). Safe: the run stops. -/
  | enqHalted (c : Channel)
  /-- Bytes that are no encoding: raised by `runFetched`. Safe; no step of the machine reaches it, since the store's
  selectors and the ports' words are all legal (R68). -/
  | badEncoding (e : DecodeError)
deriving DecidableEq, Repr

/-- Channel `c` at power-up (R150). `upc`, `dly`, `cnt` and `q` are `U` until START(c); they hold here the reset values
START(c) writes (R12, R13, R15, R18). DESIGN CHOICE, log 5. `osr` is any value (U1), log 6. -/
def Engine.powerUp (p : Params) (c : Channel) : Engine where
  en := false
  upc := 0
  dly := 0
  osr := Config.osrInit c
  cnt := 11
  clk := p.clkReset.get c
  dat := p.datReset.get c
  q := []
  phase := 0
  early := none
  begun := false

/-- The power-up state of an instance with parameters `p` (R150). -/
def State.powerUp (p : Params) : State where
  kbd := Engine.powerUp p .kbd
  mse := Engine.powerUp p .mse
  ctl := p.ctlReset
  halted := false
  diag := []
  cfg := p
  ctlDone := false
  codeI := Config.codeInit
  script := []
  schedule := []
  drawn := 0

/-- The machine right after power-up: the only reset there is (R150, R159). -/
def State.reset : State := State.powerUp Config.params

end Sys2Proof.Machine
end

