-- ==== Sys2Proof/Machine/Operands.lean ====
section
/-! DEFINITION. Operand forms: the fields of a FramedWord read back (30_encoding.md R60, R72), the bits of a word in
wire order (R45), and the bytes a micro-step selector or a port request is handed to the decoder as (R66, R115). -/

namespace Sys2Proof.Machine

/-- Field `start` of format FW (R60). -/
def startOf (w : FramedWord) : Bit := bitAt w 0

/-- Field `code`, `w[8:1]` (R60). -/
def codeOf (w : FramedWord) : RawCode := (w >>> 1).setWidth 8

/-- Field `par` (R60). -/
def parOf (w : FramedWord) : Bit := bitAt w 9

/-- Field `stop` (R60). -/
def stopOf (w : FramedWord) : Bit := bitAt w 10

/-- `w` is a proper frame: start 0, stop 1 and the parity of its code (R72). -/
def isProperFrame (w : FramedWord) : Bool :=
  decide (startOf w = 0) && decide (stopOf w = 1) && decide (parOf w = par (codeOf w))

/-- The code of a proper frame; none for any other word (R72, R87). -/
def disassemble (w : FramedWord) : Option RawCode := if isProperFrame w then some (codeOf w) else none

/-- The eleven bits of a word in wire order, bit 0 first (R45). -/
def wordBits (w : FramedWord) : List Bit := (List.range Config.thresh).map (bitAt w)

/-- The selector byte at index `upc` of the micro-program store (R66). -/
def selectorBytes (upc : Fin 3) : List Byte := [BitVec.ofNat 8 upc.val]

/-- The port a request is presented at (R115). -/
def Request.source : Request → Source
  | .code _ => .codePort
  | .word c _ => .enqPort c

/-- What is driven on that port, as bytes. -/
def Request.bytes : Request → List Byte
  | .code x => [x]
  | .word _ w => [loByte w, hiByte w]

end Sys2Proof.Machine
end

