-- ==== Sys2Proof/Machine/Ops.lean ====
section
/-! DEFINITION. The named operations over the state: reading and writing a channel, the queue primitives QPush and QPop
(20_memory.md R43, R44), loading and shifting the output shift register (41_serial_clock_engine.md R93, R94), and the
startup halt (60_exceptions.md R137). The hardware takes no exception and returns from none (R130, R136): there is no
operation for it to share. -/

namespace Sys2Proof.Machine

/-- `s[c]`: the elements of channel `c` (00_scope.md section 7). -/
def State.eng (s : State) : Channel → Engine
  | .kbd => s.kbd
  | .mse => s.mse

/-- `s[c] <- e`: writes the elements of channel `c` and nothing else. -/
def State.setEng (s : State) (c : Channel) (e : Engine) : State :=
  match c with
  | .kbd => { s with kbd := e }
  | .mse => { s with mse := e }

/-- `QPush(c, w)` (R43): appends a whole entry at the tail; not performed when the queue holds `depth` entries. -/
def qPush (depth : Nat) (e : Engine) (w : FramedWord) : Option Engine :=
  if e.q.length < depth then some { e with q := e.q ++ [w] } else none

/-- `QPop(c)` (R44): the head, and the engine without it; not performed on an empty queue. -/
def qPop (e : Engine) : Option (FramedWord × Engine) :=
  match e.q with
  | [] => none
  | w :: rest => some (w, { e with q := rest })

/-- The word a refill loads: the entry an early pop has already taken (R105, log 8), else the queue head (R94). -/
def takeWord (e : Engine) : Option (FramedWord × Engine) :=
  match e.early with
  | some w => some (w, { e with early := none })
  | none => qPop e

/-- The refill: `osr[c] <- w`, `cnt[c] <- 0` (R94). From now on a word has been begun (log 27). -/
def loadWord (w : FramedWord) (e : Engine) : Engine := { e with osr := w, cnt := 0, begun := true }

/-- The shift: bit 0 to the data pin, the register one place right with a 0 entering (D17), one more bit counted, on to
the next micro-step (R93). -/
def shiftOut (e : Engine) : Engine :=
  { e with dat := bitAt e.osr 0, osr := e.osr >>> 1, cnt := e.cnt + 1, upc := 2 }

/-- What START(c) makes of the channel (70_reset_and_hazards.md R153; the divider is cleared, R140): `osr` and the pins
keep what they hold. No word has been begun, so there is no window for an early pop before the first SHIFT (log 27). -/
def started (e : Engine) : Engine :=
  { e with upc := 0, dly := 0, cnt := 11, q := [], en := true, phase := 0, early := none, begun := false }

/-- The terminal halt of a failed startup (R137). -/
def State.halt (s : State) : State := { s with halted := true }

/-- `ctl <- 1` (70_reset_and_hazards.md R154). -/
def State.raiseCtl (s : State) : State := { s with ctl := 1#1, ctlDone := true }

end Sys2Proof.Machine
end

