-- ==== Sys2Proof/Machine/Flags.lean ====
section
/-! DEFINITION. The derived conditions of 10_state.md R19. There are no stored flags; these are functions of the state.
Also the source's two-state view of the engine (41_serial_clock_engine.md R99) and the quiescent state
(43_wire_protocol.md R125). -/

namespace Sys2Proof.Machine

/-- `full[c]`: the queue holds `QDEPTH` entries or more (R19; never more, R32 item 1). -/
def full (depth : Nat) (e : Engine) : Bool := !decide (e.q.length < depth)

/-- `empty[c]` (R19). -/
def empty (e : Engine) : Bool := decide (e.q.length = 0)

/-- `exhausted[c]`: all 11 bits of the current word are out (R19, R22). -/
def exhausted (e : Engine) : Bool := decide (e.cnt.val = Config.thresh)

/-- No word to refill from: the queue is empty (R19) and no early pop is waiting (log 8). -/
def starved (e : Engine) : Bool := empty e && e.early.isNone

/-- `stalled[c]` (R19). -/
def stalled (e : Engine) : Bool :=
  e.en && decide (e.dly = 0) && decide (e.upc = 1) && exhausted e && starved e

/-- The window in which the queue slot may be freed early (R105, U8): a SHIFT has exhausted the word, and the SHIFT that
needs the next one is not the next micro-step. After START(c) there is no previous word and so no window (log 27); an
engine at SHIFT, stalled or not, pops in that SHIFT (R44, R56). Log 8. -/
def popWindow (e : Engine) : Bool := e.begun && exhausted e && decide (e.upc ≠ 1)

/-- The quiescent state of a channel (R125). -/
def quiescent (e : Engine) : Bool :=
  e.en && decide (e.upc = 1) && decide (e.dly = 0) && decide (e.cnt = 11) && decide (e.q = []) && e.early.isNone

/-- The two states the source describes (R99). -/
inductive CoarseState where
  | drivingHighThenShifting
  | drivingLowWithExtendedHold
deriving DecidableEq, Repr

/-- The two-state view of the state between ticks (R99, 90_conflicts.md C8). -/
def coarse (e : Engine) : CoarseState :=
  if e.upc = 1 ∨ (e.upc = 0 ∧ e.dly = 0) then .drivingHighThenShifting else .drivingLowWithExtendedHold

/-- All three startup events have happened (R155). -/
def startupDone (s : State) : Bool := s.kbd.en && s.mse.en && s.ctlDone

/-- The producer has begun: its first operation comes after all three startup events (60_exceptions.md R143, R152, D10),
and never after a failed startup, since no agent has a step while `halted` (10_state.md R28, R137). Log 13. -/
def producing (s : State) : Bool := !s.halted && startupDone s

end Sys2Proof.Machine
end

