-- ==== Sys2Proof/Machine/Ports.lean ====
section
/-! DEFINITION. The ports of 42_producer_interface.md R115 as functions of the state, and the five pins (10_state.md
R25). `clk_sys_i` is the turn `sysClk`, and `por_i` is `State.reset`. -/

namespace Sys2Proof.Machine

/-- The five pins, pairwise distinct by construction (R25). Their numbers are the environment's and carry no behaviour. -/
inductive Pin where
  | clk (c : Channel)
  | dat (c : Channel)
  | ctl
deriving DecidableEq, Repr

/-- The level on a pin (R16, R17, R27). -/
def pin (s : State) : Pin → Bit
  | .clk c => (s.eng c).clk
  | .dat c => (s.eng c).dat
  | .ctl => s.ctl

/-- `frame_o`, combinational (R88). -/
def frameO (s : State) : FramedWord := frame s.codeI

/-- `enq_valid_i[c]` and `enq_data_i[c]`: the word the producer presents on channel `c`, if it presents one. It presents
none before the startup is complete, nor after a failed one (R143, R28); a word it presents stays until the ENQ
completes. -/
def enqDataI (s : State) (c : Channel) : Option FramedWord :=
  match s.script with
  | .word c' w :: _ => if producing s && decide (c' = c) then some w else none
  | _ => none

/-- `enq_valid_i[c]`. -/
def enqValidI (s : State) (c : Channel) : Bool := (enqDataI s c).isSome

/-- `enq_ready_o[c]`: started and not full, the core's only status output (R115, R132). -/
def enqReadyO (s : State) (c : Channel) : Bool := (s.eng c).en && !full s.cfg.qDepth (s.eng c)

end Sys2Proof.Machine
end

