-- ==== Sys2Proof/Machine/Startup.lean ====
section
/-! DEFINITION. The startup agent: START(c), CTLHIGH, and the halt of a failed startup
(70_reset_and_hazards.md R152 to R156, 60_exceptions.md R137). -/

namespace Sys2Proof.Machine

/-- START(c) (R153). Its precondition fails once the channel is started: it happens once (R159), and then changes
nothing. -/
def startChannel (c : Channel) (s : State) : State :=
  if (s.eng c).en then s else s.setEng c (started (s.eng c))

/-- CTLHIGH (R154): the control line high. It happens once (R152), and then changes nothing. -/
def ctlHigh (s : State) : State := if s.ctlDone then s else s.raiseCtl

/-- The startup agent's turn (R152): nothing once halted; the halt and none of the events when `STARTUP_OK` is false
(R137, R156); else the event. -/
def startupTurn (ev : StartupEvent) (s : State) : State :=
  if s.halted then s
  else if !s.cfg.startupOk then s.halt
  else
    match ev with
    | .start c => startChannel c s
    | .ctlHigh => ctlHigh s

end Sys2Proof.Machine
end

