-- ==== Sys2Proof/Machine/MicroStep.lean ====
section
/-! DEFINITION. The meanings of the three micro-steps (41_serial_clock_engine.md). When a micro-step runs is decided by
`tick` (R91, Machine/Tick.lean); here stands what it does. DESIGN CHOICE, log 24. -/

namespace Sys2Proof.Machine

/-- CLKH (R92): the clock pin high, on to SHIFT. The data pin, the queue and the delay are not touched. -/
def execClkh (c : Channel) (s : State) : Host.Outcome State Fault Refusal :=
  .next (s.setEng c { s.eng c with clk := 1#1, upc := 1 })

/-- SHIFT: a bit of the current word (R93); when the word is exhausted, a refill and the first bit of the new one in the
same step (R94); a stall that changes nothing when there is no word to refill from (R95). -/
def execShift (c : Channel) (s : State) : Host.Outcome State Fault Refusal :=
  if exhausted (s.eng c) then
    match takeWord (s.eng c) with
    | some (w, e) => .next (s.setEng c (shiftOut (loadWord w e)))
    | none => .next s
  else .next (s.setEng c (shiftOut (s.eng c)))

/-- CLKL (R96): the clock pin low, one delay tick armed (R23), the unconditional wrap to CLKH (R98). -/
def execClkl (c : Channel) (s : State) : Host.Outcome State Fault Refusal :=
  .next (s.setEng c { s.eng c with clk := 0#1, dly := Fin.ofNat 2 Config.dlyClkl, upc := 0 })

end Sys2Proof.Machine
end

