-- ==== Sys2Proof/Machine/Producer.lean ====
section
/-! DEFINITION. The meanings of the producer's two operations, FRAME (40_frame_encoder.md R80) and ENQ
(42_producer_interface.md R111), and the pseudo-operations SEND and PAUSE (30_encoding.md R71, R116). -/

namespace Sys2Proof.Machine

/-- FRAME (R80): the code is driven on `code_i`, so that `frame_o` reads `FRAME(code)` (R88, R115; log 7), and the two
diagnostic records are appended, input echo first (R86). No engine, queue or pin is touched; it cannot fail (R85). -/
def execFrame (code : RawCode) (s : State) : Host.Outcome State Fault Refusal :=
  .next { s with codeI := code, diag := s.diag ++ [.info code, .debug (frame code)] }

/-- ENQ (R111): refused before START(c) and after a failed startup (D11); a hold, nothing changed, while the queue is full
(R112); else the word as given goes to the tail of the channel's queue (R43). -/
def execEnq (c : Channel) (w : FramedWord) (s : State) : Host.Outcome State Fault Refusal :=
  if s.halted then .refused (.enqHalted c)
  else if !(s.eng c).en then .refused (.enqNotStarted c)
  else
    match qPush s.cfg.qDepth (s.eng c) w with
    | some e => .next (s.setEng c e)
    | none => .next s

/-- `SEND c, code`: FRAME and then ENQ of its result, with nothing between (R71, R116). -/
def send (c : Channel) (code : RawCode) : List Request := [.code code, .word c (frame code)]

/-- `PAUSE`: no operation of the core; it only lets other turns pass (R71, R114). -/
def pause : List Request := []

end Sys2Proof.Machine
end

