-- ==== Sys2Proof/Machine/Dispatch.lean ====
section
/-! DEFINITION. The meaning of every instruction, one arm per constructor. -/

namespace Sys2Proof.Machine

def exec (i : Instr) (s : State) : Host.Outcome State Fault Refusal :=
  match i with
  | .clkh c => Sys2Proof.Machine.execClkh c s
  | .shift c => Sys2Proof.Machine.execShift c s
  | .clkl c => Sys2Proof.Machine.execClkl c s
  | .frame code => Sys2Proof.Machine.execFrame code s
  | .enq c w => Sys2Proof.Machine.execEnq c w s

end Sys2Proof.Machine
end

