-- ==== Sys2Proof/Machine/Tick.lean ====
section
/-! DEFINITION. The engine agent: fetching and decoding the micro-step at `upc[c]`, the tick (41_serial_clock_engine.md
R91), the delay tick (R97), the divider of the timed refinement (60_exceptions.md R140), and the early pop that R105
admits. -/

namespace Sys2Proof.Machine

/-- Decodes the bytes presented at `src` and runs the instruction. -/
def runFetched (src : Source) (bytes : List Byte) (s : State) : Host.Outcome State Fault Refusal :=
  match decode src bytes with
  | .ok i => exec i s
  | .error e => .refused (.badEncoding e)

/-- The engine has no step: it is not started, or startup failed (R91). -/
def asleep (c : Channel) (s : State) : Bool := s.halted || !(s.eng c).en

/-- `dly[c] <- dly[c] - 1` and nothing else (R97). -/
def delayTick (e : Engine) : Engine := { e with dly := e.dly - 1 }

/-- `tick(c)` (R91): no change while asleep, a delay tick, or the micro-step at `upc[c]` fetched from the store (R40). -/
def tick (c : Channel) (s : State) : Host.Outcome State Fault Refusal :=
  if asleep c s then .next s
  else if (s.eng c).dly ≠ 0 then .next (s.setEng c (delayTick (s.eng c)))
  else runFetched (.store c) (selectorBytes (s.eng c).upc) s

/-- `n` ticks of engine `c` with no other agent's step between them. -/
def ticks (c : Channel) : Nat → State → Host.Outcome State Fault Refusal
  | 0, s => .next s
  | n + 1, s =>
    match tick c s with
    | .next s' => ticks c n s'
    | .fault r => .fault r
    | .refused r => .refused r

/-- One system-clock period at engine `c`'s divider (R140): the phase advances, and wraps to 0 with a `tick(c)` after
`DIV` periods. A divider that is not started does not count. -/
def sysClk (c : Channel) (s : State) : Host.Outcome State Fault Refusal :=
  if asleep c s then .next s
  else if (s.eng c).phase + 1 < s.cfg.div then
    .next (s.setEng c { s.eng c with phase := (s.eng c).phase + 1 })
  else tick c (s.setEng c { s.eng c with phase := 0 })

/-- `n` system-clock periods at engine `c`'s divider with no other agent's step between them. -/
def sysClks (c : Channel) : Nat → State → Host.Outcome State Fault Refusal
  | 0, s => .next s
  | n + 1, s =>
    match sysClk c s with
    | .next s' => sysClks c n s'
    | .fault r => .fault r
    | .refused r => .refused r

/-- The early pop (R105, U8): the queue slot may be freed at any tick from the SHIFT that exhausts a word to the SHIFT that
needs the next, inclusive. The pop at the exhausting SHIFT, at CLKL or at the delay tick is this turn after that tick,
the pop at CLKH is this turn before it, and the pop at the SHIFT that needs the word is the refill of R94. The entry
waits in `early[c]`; the SHIFT loads it from there, so the pins are those of the lazy refill. Outside the window, and so
before the first SHIFT after START(c), nothing changes. DESIGN CHOICE, log 8 and 27. -/
def earlyPop (c : Channel) (s : State) : State :=
  if asleep c s || !popWindow (s.eng c) || (s.eng c).early.isSome then s
  else
    match qPop (s.eng c) with
    | some (w, e) => s.setEng c { e with early := some w }
    | none => s

end Sys2Proof.Machine
end

