-- ==== Sys2Proof/Machine/Agents.lean ====
section
/-! DEFINITION. The producer's turn (42_producer_interface.md R110 to R112, 70_reset_and_hazards.md R155), the choice of
the next turn (60_exceptions.md R135), what a turn does, and the placing of a table word where the next step fetches it. -/

namespace Sys2Proof.Machine

/-- The producer has no step: it has not begun (60_exceptions.md R143, R152), and after a failed startup it never does
(10_state.md R28, R137). There its ENQ does not wait but is refused (R111, R156), which is no step either. That FRAME
can be evaluated at any time (R155) is said of the function, `frame` and `execFrame`. Log 13. -/
def awaitsStartup (r : Request) (s : State) : Bool :=
  match r with
  | .code _ => !producing s
  | .word _ _ => !s.halted && !startupDone s

/-- The request cannot complete: an ENQ on a full queue holds (R112). -/
def held (r : Request) (s : State) : Bool :=
  match r with
  | .code _ => false
  | .word c _ => full s.cfg.qDepth (s.eng c)

/-- The producer is done with the request in progress. -/
def State.retire (s : State) : State := { s with script := s.script.tail }

/-- The producer's turn: the request in progress is decoded at its port and run. A completed one is retired; a held one
stays in progress and is tried again (R112). Without a request the producer rests. -/
def produce (s : State) : Host.Outcome State Fault Refusal :=
  match s.script with
  | [] => .next s
  | r :: _ =>
    if awaitsStartup r s then .next s
    else
      match runFetched r.source r.bytes s with
      | .next s' => .next (if held r s then s' else s'.retire)
      | .fault x => .fault x
      | .refused x => .refused x

/-- The state with a turn taken off: `turns` are still to come, `n` have been drawn. Nothing else changes. -/
def State.takeOff (s : State) (turns : List Turn) (n : Nat) : State := { s with schedule := turns, drawn := n }

/-- The next turn, and the state with that turn taken off: the head of the schedule, or a free one (R135). Log 1. -/
def nextTurn (s : State) : Turn × State :=
  match s.schedule with
  | t :: rest => (t, s.takeOff rest s.drawn)
  | [] => (Config.turn s.drawn, s.takeOff [] (s.drawn + 1))

/-- What a turn does. A turn that is not enabled changes nothing. -/
def takeTurn (t : Turn) (s : State) : Host.Outcome State Fault Refusal :=
  match t with
  | .startup ev => .next (startupTurn ev s)
  | .tick c => tick c s
  | .sysClk c => sysClk c s
  | .earlyPop c => .next (earlyPop c s)
  | .produce => produce s

/-- Engine KBD started, about to run the micro-step at index `k`, and next to move. The rest of the channel is as it
was. -/
def placeStep (k : Fin 3) (s : State) : State :=
  { s with
    halted := false
    kbd := { s.kbd with en := true, dly := 0, upc := k }
    schedule := [.tick .kbd] }

/-- The producer about to present `r`, and next to move, after a completed startup. The rest is as it was. -/
def placeRequest (r : Request) (s : State) : State :=
  { s with
    halted := false
    kbd := { s.kbd with en := true }
    mse := { s.mse with en := true }
    ctl := 1#1
    ctlDone := true
    script := [r]
    schedule := [.produce] }

/-- The instruction of a table word placed where the next step fetches it. A word the decoder refuses leaves the state:
no place of the machine can hold it (R68). Log 2. -/
def placeTableWord (nbits w : Nat) (s : State) : State :=
  match decodeTableWord nbits w with
  | some (.clkh _) => placeStep 0 s
  | some (.shift _) => placeStep 1 s
  | some (.clkl _) => placeStep 2 s
  | some (.frame code) => placeRequest (.code code) s
  | some (.enq c w) => placeRequest (.word c w) s
  | none => s

end Sys2Proof.Machine
end

