-- ==== Sys2Proof/Machine/Step.lean ====
section
/-! DEFINITION. One step of the whole machine: the next turn is taken (60_exceptions.md R135, R143). -/

namespace Sys2Proof.Machine

/-- One step: the agent whose turn it is moves, and no other. -/
def step (s : State) : Host.Outcome State Fault Refusal :=
  takeTurn (nextTurn s).1 (nextTurn s).2

/-- The instruction of a word of the opcode table stored where the very next step fetches it. Log 2. -/
def State.withFetchWord (s : State) (nbits w : Nat) : State := placeTableWord nbits w s

end Sys2Proof.Machine
end

