-- ==== Sys2Proof/Machine/Timing.lean ====
section
/-! DEFINITION. Durations and rates (00_scope.md R5, 41_serial_clock_engine.md R102, 70_reset_and_hazards.md R167 to
R169). No functional rule depends on them; they rest on one tick per micro-step (D2). Log 17. `F_SYS` is a real (R4), the
argument `fSys`: a claim names it, quantifies over it, or takes this instance's `Config.fSys`. A rate is given by the
product that fixes it, so that nothing here divides reals. -/

namespace Sys2Proof.Machine

/-- The ticks of the micro-step at index `k`: its own and its delay (R91, D2). -/
def stepTicks (k : Fin 3) : Nat := 1 + (microProgram k).delay

/-- The ticks of one bit slot: one iteration of the micro-program (R5). -/
def slotTicks : Nat := stepTicks 0 + stepTicks 1 + stepTicks 2

/-- The ticks of one word (R167, R169). -/
def wordTicks : Nat := Config.thresh * slotTicks

/-- `f` hertz is the rate of something that takes `n` ticks: `f * (n * DIV) = F_SYS` (D3). -/
def IsRate (n : Nat) (fSys : ℝ) (p : Params) (f : ℝ) : Prop := f * ((n * p.div : Nat) : ℝ) = fSys

/-- `f` is the bit rate: `F_BIT = F_SYS / (4 * DIV)`, hertz (R5, R102). -/
def IsBitRate (fSys : ℝ) (p : Params) (f : ℝ) : Prop := IsRate slotTicks fSys p f

/-- `f` is the number of words a second of a channel whose queue never runs empty: `F_BIT / 11` (R169). -/
def IsWordRate (fSys : ℝ) (p : Params) (f : ℝ) : Prop := IsRate wordTicks fSys p f

/-- A conforming configuration: 10 kHz to 16 kHz (R5). The source says "roughly"; the bounds are taken as exact, and
nothing depends on them. DESIGN CHOICE, log 16. -/
def Conforming (fSys : ℝ) (p : Params) : Prop := ∃ f, IsBitRate fSys p f ∧ 10000 ≤ f ∧ f ≤ 16000

end Sys2Proof.Machine
end

