-- ==== Sys2Proof/Machine/Wire.lean ====
section
/-! DEFINITION. What an observer of one channel's pins sees while its engine ticks (43_wire_protocol.md R120 to R126),
and the bits a channel has still to send (20_memory.md R50). The observer is passive: these functions only read (R127). -/

namespace Sys2Proof.Machine

/-- The clock pin falls between two states (R121). -/
def falls (before after : Engine) : Bool := decide (before.clk = 1#1) && decide (after.clk = 0#1)

/-- The clock pin rises between two states (R121). -/
def rises (before after : Engine) : Bool := decide (before.clk = 0#1) && decide (after.clk = 1#1)

/-- The level of the data pin at each falling edge of the clock pin in the next `n` ticks, first edge first (R123). -/
def sampled (c : Channel) : Nat → State → List Bit
  | 0, _ => []
  | n + 1, s =>
    match tick c s with
    | .next s' => (if falls (s.eng c) (s'.eng c) then [(s'.eng c).dat] else []) ++ sampled c n s'
    | .fault _ => []
    | .refused _ => []

/-- How often the clock pin rises in the next `n` ticks (R121, R122). -/
def risingEdges (c : Channel) : Nat → State → Nat
  | 0, _ => 0
  | n + 1, s =>
    match tick c s with
    | .next s' => (if rises (s.eng c) (s'.eng c) then 1 else 0) + risingEdges c n s'
    | .fault _ => 0
    | .refused _ => 0

/-- The bits of the current word not yet on the data pin, in wire order (R14, R15). -/
def restOfWord (e : Engine) : List Bit := (List.range (Config.thresh - e.cnt.val)).map (bitAt e.osr)

/-- All bits the channel has accepted and not yet put on the data pin, in wire order (R30, R50). -/
def unsent (e : Engine) : List Bit := restOfWord e ++ (e.early.toList ++ e.q).flatMap wordBits

end Sys2Proof.Machine
end

