-- ==== Sys2Proof/Safety.lean ====
section
/-! DEFINITION. What the spec promises of every state the machine can be in: the invariants of 10_state.md R32, the
levels of the pins before they are driven (R16, R17, R27) and after a failed startup (60_exceptions.md R137); runs of the
machine, and the fairness of a run to the engines (41_serial_clock_engine.md R106). -/

namespace Sys2Proof.Machine

/-- The invariants of a started channel: the queue is bounded (R32 item 1); between steps a bit of the current word is
always out (item 2); a delay is pending only before CLKH, with the clock low (item 3, R97); the clock is high before
SHIFT and CLKL (item 4), and low before CLKH once a CLKL has run (item 4), which a begun word shows; the bits above the
unsent part of a begun word are 0, so that an exhausted one has left a register of 0 (item 5, D17); until a word is begun
the channel is as START left it, or has run CLKH (R157); an early pop waits only while a word is exhausted (R105); the
divider has not wrapped (R140). -/
structure Engine.Inv (p : Params) (e : Engine) : Prop where
  queue_bounded : e.q.length ≤ p.qDepth
  cnt_pos : 0 < e.cnt.val
  delay_before_clkh : e.dly ≠ 0 → e.upc = 0 ∧ e.clk = 0#1
  high_before_shift : e.upc ≠ 0 → e.clk = 1#1
  low_before_clkh : e.upc = 0 → e.begun = true → e.clk = 0#1
  osr_shifted : e.begun = true → e.osr.toNat < 2 ^ (Config.thresh - e.cnt.val)
  fresh_until_begun : e.begun = false → e.cnt.val = Config.thresh ∧ e.upc ≠ 2 ∧ e.dly = 0 ∧ e.early = none
  early_when_exhausted : e.early ≠ none → e.cnt.val = Config.thresh
  phase_bounded : e.phase < p.div

/-- A channel that is not started drives nothing: its pins hold their reset levels (R16, R17, R150). -/
structure Engine.Untouched (p : Params) (c : Channel) (e : Engine) : Prop where
  clk_reset : e.clk = p.clkReset.get c
  dat_reset : e.dat = p.datReset.get c

/-- The invariant of the whole machine. The data pin keeps its reset level until the first word is begun, started or not
(R17, R157, R166). -/
structure State.Inv (s : State) : Prop where
  params_wf : s.cfg.wf = true
  started_ok : ∀ c, (s.eng c).en = true → (s.eng c).Inv s.cfg
  unstarted_ok : ∀ c, (s.eng c).en = false → (s.eng c).Untouched s.cfg c
  dat_until_begun : ∀ c, (s.eng c).begun = false → (s.eng c).dat = s.cfg.datReset.get c
  ctl_done : s.ctlDone = true → s.ctl = 1#1
  ctl_not_done : s.ctlDone = false → s.ctl = s.cfg.ctlReset
  failed_startup : s.cfg.startupOk = false →
    (s.eng .kbd).en = false ∧ (s.eng .mse).en = false ∧ s.ctlDone = false
  halted_failed : s.halted = true → s.cfg.startupOk = false

/-- How many of the next `n` steps lengthen the queue of channel `c`: the ENQs that complete (20_memory.md R43, R56). -/
def acceptedIn (c : Channel) : Nat → State → Nat
  | 0, _ => 0
  | n + 1, s =>
    match step s with
    | .next t => (if (s.eng c).q.length < (t.eng c).q.length then 1 else 0) + acceptedIn c n t
    | .fault _ => 0
    | .refused _ => 0

/-- How many of the next `n` steps shorten the queue of channel `c`: the pops (R44, R56). -/
def drainedIn (c : Channel) : Nat → State → Nat
  | 0, _ => 0
  | n + 1, s =>
    match step s with
    | .next t => (if (t.eng c).q.length < (s.eng c).q.length then 1 else 0) + drainedIn c n t
    | .fault _ => 0
    | .refused _ => 0

/-- `n` steps of the whole machine. -/
def run : Nat → State → Host.Outcome State Fault Refusal
  | 0, s => .next s
  | n + 1, s =>
    match step s with
    | .next t => run n t
    | .fault r => .fault r
    | .refused r => .refused r

/-- The next step is a `tick(c)` of an engine that is awake: its own turn, or the system-clock period that wraps its
divider (41_serial_clock_engine.md R91, R140). -/
def tickIsNext (c : Channel) (s : State) : Bool :=
  !asleep c s &&
    (decide ((nextTurn s).1 = .tick c) ||
      (decide ((nextTurn s).1 = .sysClk c) && decide (s.cfg.div ≤ (s.eng c).phase + 1)))

/-- How many of the next `n` steps are a `tick(c)`. A step is one turn, so between two moments of a run there are finitely
many (R106). -/
def ticksIn (c : Channel) : Nat → State → Nat
  | 0, _ => 0
  | n + 1, s =>
    match step s with
    | .next t => (if tickIsNext c s then 1 else 0) + ticksIn c n t
    | .fault _ => 0
    | .refused _ => 0

/-- Fairness (R106): the run from `s` is weakly fair to `tick(c)` of both engines. At every moment of it, an engine that is
awake, and so has its tick enabled for good, ticks at that moment or at a later one. A liveness claim takes this as its
premise; the step does not impose it (log 1). -/
def Fair (s : State) : Prop :=
  ∀ (n : Nat) (t : State), run n s = .next t → ∀ c, asleep c t = false → ∃ m, 0 < ticksIn c m t

end Sys2Proof.Machine
end

