-- ==== Sys2Proof/Certificates/Slice0/Obligations.lean ====
section
/-! DEFINITION. The statements for the provers. R<n> is a numbered rule of spec/; "log <n>" is
notes/assumptions/<n>.md. `s.eng c` are the elements of channel `c`; `s.setEng c e` writes them and nothing else. -/

open Sys2Proof Sys2Proof.Machine

/-! ### The Frame Encoder -/

/-- R81: the parity bit is the inverted exclusive-or of the eight code bits; it is 1 exactly when the number of 1-bits is
even, 0 when it is odd, and so the code and its parity bit hold an odd number of 1-bits. -/
def Obligations.ParityBitForcesOddTotal : Prop :=
  ∀ code : RawCode,
    par code = ~~~ (bitAt code 0 ^^^ bitAt code 1 ^^^ bitAt code 2 ^^^ bitAt code 3
      ^^^ bitAt code 4 ^^^ bitAt code 5 ^^^ bitAt code 6 ^^^ bitAt code 7) ∧
    (par code = 1 ↔ popcount code % 2 = 0) ∧
    (par code = 0 ↔ popcount code % 2 = 1) ∧
    (popcount code + (par code).toNat) % 2 = 1

/-- R60: the layout of a FramedWord, bit by bit, the odd count of 1-bits among bits 1 to 9, and the wire order. -/
def Obligations.FramedWordLayout : Prop :=
  ∀ code : RawCode,
    bitAt (frame code) 0 = 0 ∧
    (∀ i : Nat, i < 8 → bitAt (frame code) (i + 1) = bitAt code i) ∧
    bitAt (frame code) 9 = par code ∧
    bitAt (frame code) 10 = 1 ∧
    popcount ((frame code).extractLsb' 1 9) % 2 = 1 ∧
    wordBits (frame code) = [0, bitAt code 0, bitAt code 1, bitAt code 2, bitAt code 3, bitAt code 4,
      bitAt code 5, bitAt code 6, bitAt code 7, par code, 1]

/-- R82: the OR of the four fields, their concatenation and their sum are the same value, and the largest is 2046. -/
def Obligations.FramePackingAsNumber : Prop :=
  ∀ code : RawCode,
    frame code = (1#11 <<< 10) ||| ((par code).setWidth 11 <<< 9) ||| (code.setWidth 11 <<< 1) ||| 0#11 ∧
    frame code = (1#1 ++ par code ++ code ++ 0#1 : BitVec 11) ∧
    (frame code).toNat = 1024 + 512 * (par code).toNat + 2 * code.toNat ∧
    (frame code).toNat ≤ 2046

/-- R83: the integer laws of FRAME, items 1 to 4. -/
def Obligations.FrameIntegerLaws : Prop :=
  (∀ code : RawCode, 1026 ≤ (frame code).toNat ∧ (frame code).toNat ≤ 2046) ∧
  (∀ code : RawCode, (frame code).toNat % 2 = 0 ∧ 1024 ≤ (frame code).toNat) ∧
  (∀ code : RawCode, (frame code).toNat = (if popcount code % 2 = 0 then 0x600 else 0x400) + 2 * code.toNat) ∧
  (∀ code m : RawCode,
    frame (code ^^^ m) =
      frame code ^^^ (m.setWidth 11 <<< 1) ^^^ (if popcount m % 2 = 0 then 0#11 else 0x200#11))

/-- R84: the three invariants the source states of FRAME. -/
def Obligations.FrameInvariantsOfTheSource : Prop :=
  (∀ code : RawCode, bitAt (frame code) 0 = 0 ∧ bitAt (frame code) 10 = 1) ∧
  (∀ code : RawCode, popcount ((frame code).extractLsb' 1 9) % 2 = 1) ∧
  (∀ code : RawCode, (frame code).extractLsb' 1 8 = code)

/-- R72, R87: the proper frames are exactly the images of FRAME, FRAME is injective, and reading bits 8 to 1 of a proper
frame gives its code back. -/
def Obligations.ProperFramesAreTheImagesOfFrame : Prop :=
  (∀ w : FramedWord, isProperFrame w = true ↔ ∃ code, frame code = w) ∧
  (∀ a b : RawCode, frame a = frame b → a = b) ∧
  (∀ code : RawCode, disassemble (frame code) = some code) ∧
  (∀ (w : FramedWord) (code : RawCode), disassemble w = some code → w = frame code)

/-- R80, R85, R86: FRAME always completes; it appends its two records in order and touches no engine, queue or pin. That
`frame_o` then reads the result is the model's port (log 7). -/
def Obligations.FrameCompletes : Prop :=
  ∀ (code : RawCode) (s : State),
    exec (.frame code) s =
      .next { s with codeI := code, diag := s.diag ++ [.info code, .debug (frame code)] } ∧
    ∀ t, exec (.frame code) s = .next t →
      frameO t = frame code ∧ (∀ c, t.eng c = s.eng c) ∧ ∀ p, pin t p = pin s p

/-! ### The micro-steps -/

/-- R92: CLKH drives the clock pin high and goes on to SHIFT; nothing else changes, whatever the queue holds. An engine
awake, with no delay pending, at index 0 runs exactly this in its tick. -/
def Obligations.ClkhCompletes : Prop :=
  (∀ (c : Channel) (s : State),
    exec (.clkh c) s = .next (s.setEng c { s.eng c with clk := 1#1, upc := 1 })) ∧
  (∀ (c : Channel) (s : State), s.halted = false → (s.eng c).en = true → (s.eng c).dly = 0 → (s.eng c).upc = 0 →
    tick c s = .next (s.setEng c { s.eng c with clk := 1#1, upc := 1 })) ∧
  (∀ (c : Channel) (s t : State), (s.eng c).clk = 1#1 → exec (.clkh c) s = .next t →
    rises (s.eng c) (t.eng c) = false)

/-- R93: SHIFT of a word that is not exhausted: bit 0 to the data pin, the register one place right with a 0 at bit 10,
one more bit counted, on to CLKL; the queue is not touched, and the eleventh bit makes the word exhausted. In every state
the invariant admits the clock is high throughout. -/
def Obligations.ShiftPlainCompletes : Prop :=
  ∀ (c : Channel) (s : State), (s.eng c).cnt.val < 11 →
    exec (.shift c) s = .next (s.setEng c
      { s.eng c with
        dat := bitAt (s.eng c).osr 0, osr := (s.eng c).osr >>> 1, cnt := (s.eng c).cnt + 1, upc := 2 }) ∧
    ((s.eng c).cnt + 1).val = (s.eng c).cnt.val + 1 ∧
    bitAt ((s.eng c).osr >>> 1) 10 = 0 ∧
    (∀ t, exec (.shift c) s = .next t → (exhausted (t.eng c) = true ↔ (s.eng c).cnt.val = 10)) ∧
    (s.halted = false → (s.eng c).en = true → (s.eng c).dly = 0 → (s.eng c).upc = 1 →
      tick c s = exec (.shift c) s) ∧
    ((s.eng c).Inv s.cfg → (s.eng c).upc = 1 → (s.eng c).clk = 1#1 ∧
      ∀ t, exec (.shift c) s = .next t → (t.eng c).clk = 1#1)

/-- R94, in the reference reading (no early pop waiting, log 8): an exhausted SHIFT takes the queue head, puts its bit 0
on the data pin, and keeps the rest of it, in one step; a full queue is full no more. `begun` is the model's mark that a
word has been loaded (log 27). -/
def Obligations.ShiftRefillCompletes : Prop :=
  ∀ (c : Channel) (s : State) (w : FramedWord) (rest : List FramedWord),
    (s.eng c).cnt.val = 11 → (s.eng c).early = none → (s.eng c).q = w :: rest →
    exec (.shift c) s = .next (s.setEng c
      { s.eng c with q := rest, dat := bitAt w 0, osr := w >>> 1, cnt := 1, upc := 2, begun := true }) ∧
    ∀ t, exec (.shift c) s = .next t → (s.eng c).q.length ≤ s.cfg.qDepth → full s.cfg.qDepth (t.eng c) = false

/-- Log 8, R105: an exhausted SHIFT that finds an entry an early pop has taken loads that entry and leaves the queue; the
early entry is the model's own way to admit the spec's window. -/
def Obligations.ShiftLoadsTheEarlyEntry : Prop :=
  ∀ (c : Channel) (s : State) (w : FramedWord),
    (s.eng c).cnt.val = 11 → (s.eng c).early = some w →
    exec (.shift c) s = .next (s.setEng c
      { s.eng c with early := none, dat := bitAt w 0, osr := w >>> 1, cnt := 1, upc := 2, begun := true })

/-- R95: an exhausted SHIFT with no word to take changes nothing at all. -/
def Obligations.ShiftStallChangesNothing : Prop :=
  ∀ (c : Channel) (s : State),
    (s.eng c).cnt.val = 11 → (s.eng c).early = none → (s.eng c).q = [] →
    exec (.shift c) s = .next s ∧
    (s.halted = false → (s.eng c).en = true → (s.eng c).dly = 0 → (s.eng c).upc = 1 → tick c s = .next s)

/-- R105, U8, log 8: an early pop (the model's choice of how to admit it) of an awake engine whose word a SHIFT has
exhausted, and which is not at SHIFT, takes the queue head aside and frees its slot, also of a full queue. Outside the
window, and so after START(c) (log 27) and while a word is being sent, nothing changes. It leaves the pins and the bits
still to be sent as they are, the SHIFT that follows it gives the very state the lazy refill gives, and after any number
of ticks the pins are those without it. -/
def Obligations.EarlyPopKeepsThePins : Prop :=
  ∀ (c : Channel) (s : State),
    (∀ (w : FramedWord) (rest : List FramedWord), s.halted = false → (s.eng c).en = true → (s.eng c).begun = true →
      (s.eng c).cnt.val = 11 → (s.eng c).upc ≠ 1 → (s.eng c).early = none → (s.eng c).q = w :: rest →
      earlyPop c s = s.setEng c { s.eng c with q := rest, early := some w } ∧
      ((s.eng c).q.length ≤ s.cfg.qDepth → full s.cfg.qDepth ((earlyPop c s).eng c) = false)) ∧
    ((s.eng c).begun = false ∨ (s.eng c).cnt.val < 11 ∨ (s.eng c).upc = 1 → earlyPop c s = s) ∧
    (∀ p, pin (earlyPop c s) p = pin s p) ∧
    (∀ c', unsent ((earlyPop c s).eng c') = unsent (s.eng c')) ∧
    exec (.shift c) (earlyPop c s) = exec (.shift c) s ∧
    (∀ (n : Nat) (t u : State), ticks c n s = .next t → ticks c n (earlyPop c s) = .next u →
      ∀ p, pin u p = pin t p)

/-- R96: CLKL drives the clock pin low, arms one delay tick and wraps to CLKH, whatever the word and the queue hold; in
every state the invariant admits it is a falling edge. -/
def Obligations.ClklCompletes : Prop :=
  (∀ (c : Channel) (s : State),
    exec (.clkl c) s = .next (s.setEng c { s.eng c with clk := 0#1, dly := 1, upc := 0 })) ∧
  (∀ (c : Channel) (s : State), s.halted = false → (s.eng c).en = true → (s.eng c).dly = 0 → (s.eng c).upc = 2 →
    tick c s = .next (s.setEng c { s.eng c with clk := 0#1, dly := 1, upc := 0 })) ∧
  (∀ (c : Channel) (s t : State), (s.eng c).Inv s.cfg → (s.eng c).upc = 2 → exec (.clkl c) s = .next t →
    falls (s.eng c) (t.eng c) = true ∧ (t.eng c).dat = (s.eng c).dat)

/-- R65: what the micro-steps do agrees with the table of the micro-program: the level, or the bits that move to the data
pin, the delay and the next index of each row. -/
def Obligations.MicroProgramTableIsWhatRuns : Prop :=
  (∀ (c : Channel) (s t : State) (v : Bit) (d : Nat),
    s.halted = false → (s.eng c).en = true → (s.eng c).dly = 0 →
    microProgram (s.eng c).upc = ⟨.setClk v, d⟩ → tick c s = .next t →
    (t.eng c).clk = v ∧ (t.eng c).dly.val = d ∧ (t.eng c).upc = nextIndex (s.eng c).upc) ∧
  (∀ (c : Channel) (s t : State) (n d : Nat),
    s.halted = false → (s.eng c).en = true → (s.eng c).dly = 0 → stalled (s.eng c) = false →
    microProgram (s.eng c).upc = ⟨.shiftOut n, d⟩ → tick c s = .next t →
    (unsent (s.eng c)).take n = [(t.eng c).dat] ∧ unsent (t.eng c) = (unsent (s.eng c)).drop n ∧
      (t.eng c).dly.val = d ∧
      (t.eng c).upc = nextIndex (s.eng c).upc)

/-! ### ENQ and the queue -/

/-- R111: on a started channel with room, ENQ stores the word as given at the tail; nothing else changes. -/
def Obligations.EnqCompletes : Prop :=
  ∀ (c : Channel) (w : FramedWord) (s : State),
    s.halted = false → (s.eng c).en = true → (s.eng c).q.length < s.cfg.qDepth →
    exec (.enq c w) s = .next (s.setEng c { s.eng c with q := (s.eng c).q ++ [w] }) ∧
    ∀ t, exec (.enq c w) s = .next t → t.eng c.other = s.eng c.other ∧ empty (t.eng c) = false

/-- R111, R112: on a full queue ENQ holds: nothing changes, nothing is dropped. -/
def Obligations.EnqHoldsWhileFull : Prop :=
  ∀ (c : Channel) (w : FramedWord) (s : State),
    s.halted = false → (s.eng c).en = true → full s.cfg.qDepth (s.eng c) = true →
    exec (.enq c w) s = .next s

/-- R111, D11: ENQ is refused after a failed startup, and on a channel that is not started; in no other state. -/
def Obligations.EnqRefusedUnlessStarted : Prop :=
  ∀ (c : Channel) (w : FramedWord) (s : State),
    (s.halted = true → exec (.enq c w) s = .refused (.enqHalted c)) ∧
    (s.halted = false → (s.eng c).en = false → exec (.enq c w) s = .refused (.enqNotStarted c)) ∧
    (s.halted = false → (s.eng c).en = true → ∃ t, exec (.enq c w) s = .next t)

/-- R115: `enq_ready_o[c]` tells, on a machine that is not halted, whether an ENQ on the channel completes; and while the
producer presents a word on the channel, which it does only after the startup (log 13), its turn completes the ENQ when
ready is 1 and keeps valid and data as they are when it is 0. -/
def Obligations.EnqReadyTellsCompletion : Prop :=
  (∀ (c : Channel) (w : FramedWord) (s : State), s.halted = false →
    (enqReadyO s c = true ↔
      ∃ t, exec (.enq c w) s = .next t ∧ (t.eng c).q = (s.eng c).q ++ [w])) ∧
  (∀ (c : Channel) (w : FramedWord) (s : State), enqDataI s c = some w →
    enqValidI s c = true ∧ s.halted = false ∧ startupDone s = true ∧
    ∀ turns, s.schedule = .produce :: turns →
      (enqReadyO s c = true → ∃ t, step s = .next t ∧ (t.eng c).q = (s.eng c).q ++ [w] ∧ t.script = s.script.tail) ∧
      (enqReadyO s c = false → ∃ t, step s = .next t ∧ t.eng c = s.eng c ∧ enqDataI t c = some w))

/-- R43: QPush appends one whole entry at the tail exactly when there is room, and is not performed otherwise; the ENQ then holds; and a
queue grows in a step only when the producer's ENQ completes, by that one word, below the capacity. -/
def Obligations.QPushOnlyByEnq : Prop :=
  (∀ (depth : Nat) (e : Engine) (w : FramedWord),
    (e.q.length < depth → qPush depth e w = some { e with q := e.q ++ [w] }) ∧
    (depth ≤ e.q.length → qPush depth e w = none)) ∧
  (∀ (c : Channel) (w : FramedWord) (s : State), s.halted = false → (s.eng c).en = true →
    s.cfg.qDepth ≤ (s.eng c).q.length → exec (.enq c w) s = .next s) ∧
  (∀ (s t : State) (c : Channel), step s = .next t → (s.eng c).q.length < (t.eng c).q.length →
    ∃ w rest, (nextTurn s).1 = .produce ∧ s.script = .word c w :: rest ∧
      (s.eng c).q.length < s.cfg.qDepth ∧ (t.eng c).q = (s.eng c).q ++ [w])

/-- R44: QPop gives the head and removes it, exactly when the queue is not empty; and the queue of a started channel
shrinks in a step only by its head, in a SHIFT that needs a word or in an early pop in its window (log 8). -/
def Obligations.QPopTakesTheHead : Prop :=
  (∀ (e : Engine) (w : FramedWord) (rest : List FramedWord), e.q = w :: rest →
    qPop e = some (w, { e with q := rest })) ∧
  (∀ e : Engine, e.q = [] → qPop e = none) ∧
  (∀ (s t : State) (c : Channel), (s.eng c).en = true → step s = .next t →
    (t.eng c).q.length < (s.eng c).q.length →
    s.halted = false ∧ exhausted (s.eng c) = true ∧ (s.eng c).early = none ∧
    ∃ w, (s.eng c).q = w :: (t.eng c).q ∧
      ((popWindow (s.eng c) = true ∧ (t.eng c).early = some w ∧ ∀ p, pin t p = pin s p) ∨
       ((t.eng c).early = none ∧ (s.eng c).upc = 1 ∧ (t.eng c).upc = 2 ∧ (t.eng c).dat = bitAt w 0)))

/-- R52: a push and a pop on one queue commute whenever both are enabled. -/
def Obligations.PushAndPopCommute : Prop :=
  ∀ (c : Channel) (w head : FramedWord) (rest : List FramedWord) (s : State),
    s.halted = false → (s.eng c).en = true → (s.eng c).dly = 0 → (s.eng c).upc = 1 → (s.eng c).cnt.val = 11 →
    (s.eng c).early = none → (s.eng c).q = head :: rest → (s.eng c).q.length < s.cfg.qDepth →
    ∃ a b t, exec (.enq c w) s = .next a ∧ tick c a = .next t ∧ tick c s = .next b ∧ exec (.enq c w) b = .next t ∧
      (t.eng c).q = rest ++ [w]

/-- R56: back-pressure. From an empty queue of a started channel, in any number of steps of the whole machine, the ENQs
that complete exceed the pops by at most `QDEPTH`: the k-th ENQ needs `k - QDEPTH` pops before it. And an engine that has
begun no word since START(c), or that is at SHIFT, pops in that SHIFT and in no other step, before any bit of the word has
been clocked out. -/
def Obligations.BackPressure : Prop :=
  (∀ (c : Channel) (n : Nat) (s : State), s.Inv → (s.eng c).en = true → (s.eng c).q = [] →
    acceptedIn c n s ≤ s.cfg.qDepth + drainedIn c n s) ∧
  (∀ (c : Channel) (s t : State), (s.eng c).en = true → (s.eng c).begun = false ∨ (s.eng c).upc = 1 →
    step s = .next t → (t.eng c).q.length < (s.eng c).q.length →
    (s.eng c).upc = 1 ∧ (t.eng c).upc = 2 ∧ (t.eng c).clk = (s.eng c).clk ∧ (t.eng c).cnt.val = 1)

/-- R112: while its ENQ is held the producer stays at that request and the step changes nothing else; once there is room
the ENQ completes and the producer goes on. R143, R155, log 13: until the startup is complete the producer's turn changes
nothing, whatever its request, which stays in progress. -/
def Obligations.BlockedProducerWaits : Prop :=
  (∀ (c : Channel) (w : FramedWord) (s : State) (turns : List Turn) (more : List Request),
    s.halted = false → startupDone s = true → s.schedule = .produce :: turns → s.script = .word c w :: more →
    (full s.cfg.qDepth (s.eng c) = true → step s = .next { s with schedule := turns }) ∧
    (full s.cfg.qDepth (s.eng c) = false →
      step s = .next
        { s.setEng c { s.eng c with q := (s.eng c).q ++ [w] } with schedule := turns, script := more })) ∧
  (∀ (s : State) (turns : List Turn), s.halted = false → startupDone s = false → s.schedule = .produce :: turns →
    step s = .next { s with schedule := turns } ∧ ∀ c, enqValidI s c = false)

/-- R116: SEND is FRAME and then ENQ of its result; the two records are appended before the ENQ is tried, so also when
the ENQ then holds. -/
def Obligations.SendFramesThenEnqueues : Prop :=
  ∀ (c : Channel) (code : RawCode) (s : State) (turns : List Turn) (more : List Request),
    s.halted = false → startupDone s = true → s.schedule = .produce :: .produce :: turns →
    s.script = send c code ++ more →
    ∃ a b, step s = .next a ∧ step a = .next b ∧
      a.diag = s.diag ++ [.info code, .debug (frame code)] ∧ b.diag = a.diag ∧ (∀ c', a.eng c' = s.eng c') ∧
      b.eng c.other = s.eng c.other ∧
      (full s.cfg.qDepth (s.eng c) = false →
        b.eng c = { s.eng c with q := (s.eng c).q ++ [frame code] } ∧ b.script = more) ∧
      (full s.cfg.qDepth (s.eng c) = true →
        b.eng c = s.eng c ∧ b.script = .word c (frame code) :: more)

/-! ### What every instruction leaves alone -/

/-- The frame of every instruction, when it answers a next state: the micro-steps write their own channel only (R101,
R120), FRAME no channel (R80), ENQ one queue (R111); none writes `ctl`, `halted`, `en`, the configuration, the divider
or the inputs of the machine (R11, R27, R28, R140). -/
def Obligations.InstructionFrames : Prop :=
  ∀ (i : Instr) (s t : State), exec i s = .next t →
    (t.ctl = s.ctl ∧ t.halted = s.halted ∧ t.cfg = s.cfg ∧ t.ctlDone = s.ctlDone ∧ t.script = s.script ∧
      t.schedule = s.schedule ∧ t.drawn = s.drawn ∧
      ∀ c, (t.eng c).en = (s.eng c).en ∧ (t.eng c).phase = (s.eng c).phase) ∧
    match i with
    | .clkh c =>
      t.eng c.other = s.eng c.other ∧ t.diag = s.diag ∧ t.codeI = s.codeI ∧ (t.eng c).q = (s.eng c).q ∧
      (t.eng c).early = (s.eng c).early ∧ (t.eng c).dat = (s.eng c).dat ∧ (t.eng c).osr = (s.eng c).osr ∧
      (t.eng c).cnt = (s.eng c).cnt ∧ (t.eng c).dly = (s.eng c).dly
    | .shift c =>
      t.eng c.other = s.eng c.other ∧ t.diag = s.diag ∧ t.codeI = s.codeI ∧
      (t.eng c).clk = (s.eng c).clk ∧ (t.eng c).dly = (s.eng c).dly ∧
      ((t.eng c).q = (s.eng c).q ∨ (t.eng c).q = (s.eng c).q.tail ∧ (s.eng c).cnt.val = 11)
    | .clkl c =>
      t.eng c.other = s.eng c.other ∧ t.diag = s.diag ∧ t.codeI = s.codeI ∧ (t.eng c).q = (s.eng c).q ∧
      (t.eng c).early = (s.eng c).early ∧ (t.eng c).dat = (s.eng c).dat ∧ (t.eng c).osr = (s.eng c).osr ∧
      (t.eng c).cnt = (s.eng c).cnt
    | .frame _ => ∀ c, t.eng c = s.eng c
    | .enq c _ =>
      t.eng c.other = s.eng c.other ∧ t.diag = s.diag ∧ t.codeI = s.codeI ∧
      { t.eng c with q := (s.eng c).q } = s.eng c

/-! ### The tick and the step -/

/-- R91: a tick is no change while the engine is asleep, a delay tick while a delay is pending (R97), and else the
micro-step at the engine's index; every tick answers a next state (R100). -/
def Obligations.TickDispatch : Prop :=
  ∀ (c : Channel) (s : State),
    ((s.halted = true ∨ (s.eng c).en = false) → tick c s = .next s) ∧
    (s.halted = false → (s.eng c).en = true →
      ((s.eng c).dly ≠ 0 → tick c s = .next (s.setEng c { s.eng c with dly := 0 })) ∧
      ((s.eng c).dly = 0 →
        ((s.eng c).upc = 0 → tick c s = exec (.clkh c) s) ∧
        ((s.eng c).upc = 1 → tick c s = exec (.shift c) s) ∧
        ((s.eng c).upc = 2 → tick c s = exec (.clkl c) s))) ∧
    ∃ t, tick c s = .next t

/-- A step runs the decoded instruction. The next turn is the head of the schedule, or a free one (log 1); an engine's
tick runs the instruction its selector decodes to (R66, R91); the producer's turn runs the instruction its request
decodes to and then goes on to the next request, unless the ENQ is held (R110 to R112), or is refused with it. -/
def Obligations.StepRunsTheDecodedInstruction : Prop :=
  (∀ (s : State) (t : Turn) (turns : List Turn), s.schedule = t :: turns →
    step s = takeTurn t { s with schedule := turns }) ∧
  (∀ s : State, s.schedule = [] → step s = takeTurn (Config.turn s.drawn) { s with drawn := s.drawn + 1 }) ∧
  (∀ (s : State) (c : Channel) (turns : List Turn) (i : Instr),
    s.schedule = .tick c :: turns → s.halted = false → (s.eng c).en = true → (s.eng c).dly = 0 →
    decode (.store c) (selectorBytes (s.eng c).upc) = .ok i → i.wf = true →
    step s = exec i { s with schedule := turns }) ∧
  (∀ (s : State) (turns : List Turn) (r : Request) (more : List Request) (i : Instr),
    s.schedule = .produce :: turns → s.script = r :: more → awaitsStartup r s = false →
    decode r.source r.bytes = .ok i → i.wf = true →
    (∀ t, exec i { s with schedule := turns } = .next t →
      step s = .next (if held r s then t else { t with script := more })) ∧
    (∀ x, exec i { s with schedule := turns } = .refused x → step s = .refused x))

/-- R130, R131: no step faults, and the only step that is refused is the producer's ENQ after a failed startup. -/
def Obligations.OnlyEnqAfterFailedStartupIsRefused : Prop :=
  (∀ (s : State) (x : Fault), step s ≠ .fault x) ∧
  (∀ (s : State) (x : Refusal), step s = .refused x →
    ∃ c w more, s.halted = true ∧ s.script = .word c w :: more ∧ (nextTurn s).1 = .produce ∧ x = .enqHalted c)

/-- R98, R12: the only control transfers of a started engine in any step of the machine: 0 to 1, 1 to 2, 2 to 0. -/
def Obligations.ControlTransfers : Prop :=
  ∀ (s t : State) (c : Channel), (s.eng c).en = true → step s = .next t → (t.eng c).upc ≠ (s.eng c).upc →
    (s.eng c).dly = 0 ∧ (t.eng c).upc = nextIndex (s.eng c).upc

/-- R99: in the source's two-state view the state changes in a completed SHIFT and in the delay tick, and at no other
tick. -/
def Obligations.CoarseStatesAlternate : Prop :=
  ∀ (s t : State) (c : Channel), s.halted = false → (s.eng c).en = true → (s.eng c).Inv s.cfg →
    tick c s = .next t →
    (coarse (t.eng c) ≠ coarse (s.eng c) ↔
      (s.eng c).dly ≠ 0 ∨ ((s.eng c).upc = 1 ∧ (s.eng c).dly = 0 ∧ stalled (s.eng c) = false))

/-- R120: where pins change. In any step of the machine `clk[c]` changes only in CLKH, to 1, and CLKL, to 0; `dat[c]`
only in a completed SHIFT; `ctl` only to 1, in CTLHIGH. -/
def Obligations.PinsChangeOnlyInTheirSteps : Prop :=
  ∀ (s t : State), step s = .next t →
    (∀ c, (t.eng c).clk ≠ (s.eng c).clk →
      s.halted = false ∧ (s.eng c).en = true ∧ (s.eng c).dly = 0 ∧
      (((s.eng c).upc = 0 ∧ (t.eng c).clk = 1#1) ∨ ((s.eng c).upc = 2 ∧ (t.eng c).clk = 0#1))) ∧
    (∀ c, (t.eng c).dat ≠ (s.eng c).dat →
      s.halted = false ∧ (s.eng c).en = true ∧ (s.eng c).dly = 0 ∧ (s.eng c).upc = 1 ∧ (t.eng c).upc = 2) ∧
    (t.ctl ≠ s.ctl → t.ctl = 1#1 ∧ (nextTurn s).1 = .startup .ctlHigh)

/-- R50: what a channel accepts is what it sends, in order, each bit once. In any step of the machine, for a started
channel, the bits still to be sent stay and the data pin too; or the first of them goes to the data pin; or an ENQ of the
producer adds the eleven bits of its word at the end. -/
def Obligations.BitsGoOutInEnqueueOrder : Prop :=
  ∀ (s t : State) (c : Channel), (s.eng c).en = true → step s = .next t →
    (unsent (t.eng c) = unsent (s.eng c) ∧ (t.eng c).dat = (s.eng c).dat) ∨
    ((s.eng c).upc = 1 ∧ (t.eng c).upc = 2 ∧ unsent (s.eng c) = (t.eng c).dat :: unsent (t.eng c)) ∨
    (∃ w more, (nextTurn s).1 = .produce ∧ s.script = .word c w :: more ∧
      unsent (t.eng c) = unsent (s.eng c) ++ wordBits w ∧ (t.eng c).dat = (s.eng c).dat)

/-! ### Two channels -/

/-- R101: a turn that is about one channel leaves every element of the other, and an engine's tick leaves everything that
is not its own channel's. -/
def Obligations.TurnsLeaveTheOtherChannel : Prop :=
  ∀ (s t : State) (c : Channel),
    ((takeTurn (.tick c) s = .next t ∨ takeTurn (.sysClk c) s = .next t ∨ takeTurn (.earlyPop c) s = .next t) →
      t = s.setEng c (t.eng c) ∧ t.eng c.other = s.eng c.other) ∧
    (takeTurn (.startup (.start c)) s = .next t → t.eng c.other = s.eng c.other)

/-- R101: what a tick makes of a channel depends on that channel alone (and on `halted`): two states that agree there,
whatever the other channel, the producer and the log hold, agree there after the tick, for any number of ticks. -/
def Obligations.ChannelDependsOnItselfAlone : Prop :=
  ∀ (c : Channel) (n : Nat) (s₁ s₂ t₁ t₂ : State), s₁.eng c = s₂.eng c → s₁.halted = s₂.halted →
    ticks c n s₁ = .next t₁ → ticks c n s₂ = .next t₂ →
    t₁.eng c = t₂.eng c ∧ sampled c n s₁ = sampled c n s₂

/-- R101, R135: the ticks of the two engines commute, and so does a tick with an ENQ on the other channel. -/
def Obligations.TicksOfTheChannelsCommute : Prop :=
  (∀ s a t : State, tick .kbd s = .next a → tick .mse a = .next t →
    ∃ b, tick .mse s = .next b ∧ tick .kbd b = .next t) ∧
  (∀ (c : Channel) (w : FramedWord) (s a t : State), tick c s = .next a → exec (.enq c.other w) a = .next t →
    ∃ b, exec (.enq c.other w) s = .next b ∧ tick c b = .next t)

/-- R29, R86: no step depends on the diagnostic log: with another log the same step gives the same state but for the
log. -/
def Obligations.DiagnosticsNeverMatter : Prop :=
  ∀ (s t : State) (log : List DiagRec), step s = .next t →
    ∃ log', step { s with diag := log } = .next { t with diag := log' }

/-! ### Startup -/

/-- R153: START(c) starts the channel at CLKH, exhausted, with an empty queue; the shift register and the pins keep what
they hold, and it happens once. The early entry, the divider and the mark of a begun word cleared are the model's (logs 8,
15 and 27). -/
def Obligations.StartEvent : Prop :=
  ∀ (c : Channel) (s : State), s.halted = false → s.cfg.startupOk = true →
    ((s.eng c).en = false →
      startupTurn (.start c) s = s.setEng c
        { s.eng c with
          upc := 0, dly := 0, cnt := 11, q := [], en := true, phase := 0, early := none, begun := false }) ∧
    ((s.eng c).en = true → startupTurn (.start c) s = s)

/-- R154, R152: CTLHIGH sets the control line high and changes nothing else of the hardware; and once it has happened no
step of the machine changes the line. That it has happened is the field `ctlDone`, the model's choice (log 14, DESIGN
CHOICE). -/
def Obligations.CtlHighOnceAndForAll : Prop :=
  (∀ s : State, s.halted = false → s.cfg.startupOk = true → s.ctlDone = false →
    startupTurn .ctlHigh s = { s with ctl := 1#1, ctlDone := true }) ∧
  (∀ s t : State, s.ctlDone = true → step s = .next t → t.ctl = s.ctl ∧ t.ctlDone = true)

/-- R137, R156, R28: with `STARTUP_OK` false the startup agent's turn halts the machine and starts nothing; and while it
is halted no agent has a step: whosever turn it is, the producer's too, only the turn is taken off, or the producer's ENQ
is refused (R111). -/
def Obligations.FailedStartupFreezesThePins : Prop :=
  (∀ (ev : StartupEvent) (s : State), s.cfg.startupOk = false → s.halted = false →
    startupTurn ev s = { s with halted := true }) ∧
  (∀ s : State, s.halted = true →
    (∃ turns n, step s = .next (s.takeOff turns n)) ∨
    (∃ c w more, (nextTurn s).1 = .produce ∧ s.script = .word c w :: more ∧ step s = .refused (.enqHalted c)))

/-- R152: the six orders of the three startup events all lead to the same state: both channels started, the control line
high. -/
def Obligations.StartupOrderDoesNotMatter : Prop :=
  ∀ (p : Params) (evs : List StartupEvent), p.startupOk = true →
    evs.Perm [.start .kbd, .start .mse, .ctlHigh] →
    evs.foldl (fun s ev => startupTurn ev s) (State.powerUp p) =
      { State.powerUp p with
        kbd := started (Engine.powerUp p .kbd), mse := started (Engine.powerUp p .mse), ctl := 1#1, ctlDone := true }

/-- R150: what reset leaves, for the elements the spec gives a value: no engine started, not halted, an empty log, and
the five pins at the levels the parameters say. -/
def Obligations.ResetValues : Prop :=
  (∀ c, (State.reset.eng c).en = false) ∧ State.reset.halted = false ∧ State.reset.diag = [] ∧
  (∀ c, pin State.reset (.clk c) = State.reset.cfg.clkReset.get c) ∧
  (∀ c, pin State.reset (.dat c) = State.reset.cfg.datReset.get c) ∧
  pin State.reset .ctl = State.reset.cfg.ctlReset ∧ State.reset.cfg = Config.params

/-- R157: after START(c) with no ENQ, any positive number of ticks leaves the clock high and everything else as START
left it, and no falling edge is seen. -/
def Obligations.FirstTicksAfterStart : Prop :=
  ∀ (c : Channel) (s : State) (n : Nat), s.halted = false → (s.eng c).en = true → (s.eng c).upc = 0 →
    (s.eng c).dly = 0 → (s.eng c).cnt.val = 11 → (s.eng c).q = [] → (s.eng c).early = none → 1 ≤ n →
    ticks c n s = .next (s.setEng c { s.eng c with clk := 1#1, upc := 1 }) ∧ sampled c n s = []

/-! ### On the wire -/

/-- R95, R125: a stalled engine rests: any number of ticks changes nothing and no edge is seen. -/
def Obligations.StalledEngineRests : Prop :=
  ∀ (c : Channel) (s : State) (n : Nat), s.halted = false → stalled (s.eng c) = true →
    ticks c n s = .next s ∧ sampled c n s = [] ∧ risingEdges c n s = 0

/-- R111, R168: an ENQ that completes on a quiescent channel is followed by the start of its word at the next tick, with
the clock high, and by the first falling edge at the one after it. The channel is in a state of the invariant, which says
that the clock rests high (R32 item 4). -/
def Obligations.EnqLiftsTheStall : Prop :=
  ∀ (c : Channel) (w : FramedWord) (s : State), s.halted = false → quiescent (s.eng c) = true →
    (s.eng c).Inv s.cfg → 1 ≤ s.cfg.qDepth →
    ∃ a t u, exec (.enq c w) s = .next a ∧ tick c a = .next t ∧ tick c t = .next u ∧
      falls (s.eng c) (a.eng c) = false ∧ falls (a.eng c) (t.eng c) = false ∧
      (t.eng c).dat = bitAt w 0 ∧ (t.eng c).clk = 1#1 ∧ (t.eng c).q = [] ∧
      falls (t.eng c) (u.eng c) = true ∧ (u.eng c).clk = 0#1 ∧ (u.eng c).dat = bitAt w 0

/-- R129: one bit slot of an engine that does not stall, tick by tick, with the levels of the two pins after each: CLKH,
SHIFT, CLKL, delay. After the four ticks the engine is at CLKH again with one bit more sent (R5). The bit is the next one
of the word being sent, or, when that word is exhausted, bit 0 of the word that the SHIFT takes, from the queue or from an
early pop (log 8). -/
def Obligations.OneBitSlot : Prop :=
  (∀ (c : Channel) (s : State), s.halted = false → (s.eng c).en = true → (s.eng c).upc = 0 → (s.eng c).dly = 0 →
    (s.eng c).cnt.val < 11 →
    ∃ s₁ s₂ s₃ s₄,
      tick c s = .next s₁ ∧ tick c s₁ = .next s₂ ∧ tick c s₂ = .next s₃ ∧ tick c s₃ = .next s₄ ∧
      (s₁.eng c).clk = 1#1 ∧ (s₁.eng c).dat = (s.eng c).dat ∧
      (s₂.eng c).clk = 1#1 ∧ (s₂.eng c).dat = bitAt (s.eng c).osr 0 ∧
      (s₃.eng c).clk = 0#1 ∧ (s₃.eng c).dat = bitAt (s.eng c).osr 0 ∧
      s₄ = s.setEng c
        { s.eng c with
          clk := 0#1, dat := bitAt (s.eng c).osr 0, osr := (s.eng c).osr >>> 1, cnt := (s.eng c).cnt + 1 }) ∧
  (∀ (c : Channel) (s : State) (w : FramedWord) (rest : List FramedWord),
    s.halted = false → (s.eng c).en = true → (s.eng c).upc = 0 → (s.eng c).dly = 0 → (s.eng c).cnt.val = 11 →
    ((s.eng c).early = none ∧ (s.eng c).q = w :: rest) ∨ ((s.eng c).early = some w ∧ (s.eng c).q = rest) →
    ∃ s₁ s₂ s₃ s₄,
      tick c s = .next s₁ ∧ tick c s₁ = .next s₂ ∧ tick c s₂ = .next s₃ ∧ tick c s₃ = .next s₄ ∧
      (s₁.eng c).clk = 1#1 ∧ (s₁.eng c).dat = (s.eng c).dat ∧
      (s₂.eng c).clk = 1#1 ∧ (s₂.eng c).dat = bitAt w 0 ∧
      (s₃.eng c).clk = 0#1 ∧ (s₃.eng c).dat = bitAt w 0 ∧
      s₄ = s.setEng c
        { s.eng c with
          clk := 0#1, dat := bitAt w 0, osr := w >>> 1, cnt := 1, q := rest, early := none, begun := true })

/-- R32 item 5, R123: from the SHIFT that takes word `w` from the queue, the k-th SHIFT (k from 1 to 11) falls in tick
`4 * (k - 1) + 1`; after it the register is `w >> k` and the data pin is `w[k-1]`, with the clock high. -/
def Obligations.KthShiftSendsBitK : Prop :=
  ∀ (c : Channel) (s : State) (w : FramedWord) (rest : List FramedWord) (k : Nat),
    s.halted = false → (s.eng c).en = true → (s.eng c).upc = 1 → (s.eng c).dly = 0 → (s.eng c).clk = 1#1 →
    (s.eng c).cnt.val = 11 → (s.eng c).early = none → (s.eng c).q = w :: rest → 1 ≤ k → k ≤ 11 →
    ∃ t, ticks c (4 * (k - 1) + 1) s = .next t ∧
      (t.eng c).osr = w >>> k ∧ (t.eng c).cnt.val = k ∧ (t.eng c).dat = bitAt w (k - 1) ∧
      (t.eng c).clk = 1#1 ∧ (t.eng c).upc = 2 ∧ (t.eng c).q = rest

/-- R122 to R126, R50: a whole queue on the wire. From the SHIFT that takes the first word, 44 ticks a word, back to back:
the data pin at the falling edges is the bits of the words in order, there are eleven falling and eleven rising edges a
word, and the engine ends quiescent with the clock high and the last word's bit 10 on the data pin. -/
def Obligations.QueueGoesOutWordByWord : Prop :=
  ∀ (c : Channel) (s : State), s.halted = false → (s.eng c).en = true → (s.eng c).upc = 1 → (s.eng c).dly = 0 →
    (s.eng c).clk = 1#1 → (s.eng c).cnt.val = 11 → (s.eng c).early = none →
    sampled c (44 * (s.eng c).q.length) s = (s.eng c).q.flatMap wordBits ∧
    risingEdges c (44 * (s.eng c).q.length) s = 11 * (s.eng c).q.length ∧
    ∃ t, ticks c (44 * (s.eng c).q.length) s = .next t ∧ t = s.setEng c (t.eng c) ∧
      quiescent (t.eng c) = true ∧ (t.eng c).clk = 1#1 ∧
      ∀ w, (s.eng c).q.getLast? = some w → (t.eng c).dat = bitAt w 10 ∧ (t.eng c).osr = 0#11

/-- R112, R55: the hold of an ENQ ends, and the word at the head begins, within 44 ticks of the channel's engine: from
any state of the invariant with a word in the queue (no early pop waiting, log 8), the head is taken by then. And in the
whole machine, whatever the other agents do between them, a queue that holds a word loses one while its engine ticks 48
times: 44, and 4 more for an early entry that goes first (log 8). Under R106 those ticks come. -/
def Obligations.HeadBeginsWithin44Ticks : Prop :=
  (∀ (c : Channel) (s : State) (w : FramedWord) (rest : List FramedWord),
    s.halted = false → (s.eng c).en = true → (s.eng c).Inv s.cfg → (s.eng c).early = none →
    (s.eng c).q = w :: rest →
    ∃ n t, n ≤ 44 ∧ ticks c n s = .next t ∧ (t.eng c).q = rest ∧ (t.eng c).cnt.val = 1 ∧
      (t.eng c).dat = bitAt w 0) ∧
  (∀ (c : Channel) (s : State) (n : Nat), s.Inv → (s.eng c).en = true → (s.eng c).q ≠ [] → 48 ≤ ticksIn c n s →
    1 ≤ drainedIn c n s)

/-- R140: the divider. From phase 0, fewer than `DIV` system-clock periods only advance the phase, and `k * DIV` periods
are `k` ticks. -/
def Obligations.DividerMakesTicks : Prop :=
  ∀ (c : Channel) (s : State), s.halted = false → (s.eng c).en = true → (s.eng c).phase = 0 → 1 ≤ s.cfg.div →
    (∀ n, n < s.cfg.div → sysClks c n s = .next (s.setEng c { s.eng c with phase := n })) ∧
    (∀ k, sysClks c (k * s.cfg.div) s = ticks c k s)

/-- R5, R4, R167, R169: a bit slot is 4 ticks and a word 44; for every real system-clock frequency the bit clock is
`F_SYS / (4 * DIV)`, positive, and the word rate an eleventh of it; and the spec's example of 125 MHz and 2500 gives
12.5 kHz, which conforms. -/
def Obligations.BitRate : Prop :=
  slotTicks = 4 ∧ wordTicks = 44 ∧
  (∀ (fSys f : ℝ) (p : Params), p.wf = true →
    (IsBitRate fSys p f ↔ f = fSys / (4 * (p.div : ℝ))) ∧ (fSysWf fSys → IsBitRate fSys p f → 0 < f) ∧
    (IsBitRate fSys p f → IsWordRate fSys p (f / 11))) ∧
  (∀ p : Params, p.div = 2500 → IsBitRate 125000000 p 12500 ∧ Conforming 125000000 p)

/-! ### Encodings -/

/-- R60 to R69: decoding the encoding of an instruction gives the instruction back, with every operand at every value. -/
def Obligations.DecodeOfEncode : Prop :=
  ∀ i : Instr, i.wf = true → decode (encode i).src (encode i).bytes = .ok i

/-- R69: each instruction has one encoding: bytes that decode to it are its encoding, at its place. -/
def Obligations.EncodingIsUnique : Prop :=
  ∀ (src : Source) (bytes : List Byte) (i : Instr), decode src bytes = .ok i → encode i = ⟨src, bytes⟩

/-- R66, R68, R42: what is no encoding is rejected by name: the selector 3, a bit outside the format, a wrong length. The
layout in bytes is the model's (log 11). -/
def Obligations.IllegalEncodingsAreRejected : Prop :=
  (∀ c, decode (.store c) [3] = .error .noSuchStep) ∧
  (∀ (c : Channel) (b : Byte), 4 ≤ b.toNat → decode (.store c) [b] = .error .bitOutsideFormat) ∧
  (∀ (c : Channel) (lo hi : Byte), 8 ≤ hi.toNat → decode (.enqPort c) [lo, hi] = .error .bitOutsideFormat) ∧
  (∀ src : Source, decode src [] = .error .wrongLength) ∧
  (∀ (c : Channel) (bs : List Byte), bs.length ≠ 1 → decode (.store c) bs = .error .wrongLength) ∧
  (∀ bs : List Byte, bs.length ≠ 1 → decode .codePort bs = .error .wrongLength) ∧
  (∀ (c : Channel) (bs : List Byte), bs.length ≠ 2 → decode (.enqPort c) bs = .error .wrongLength)

/-- Words written out from R61, R62 and R66 decode to their instructions: the selectors 00, 01, 10, the code 0x12, and
the entry 0x624 in two bytes. -/
def Obligations.WrittenWordsDecode : Prop :=
  decode (.store .kbd) [0b00000000] = .ok (.clkh .kbd) ∧
  decode (.store .mse) [0b00000001] = .ok (.shift .mse) ∧
  decode (.store .kbd) [0b00000010] = .ok (.clkl .kbd) ∧
  decode .codePort [0b00010010] = .ok (.frame 0x12) ∧
  decode (.enqPort .mse) [0b00100100, 0b00000110] = .ok (.enq .mse 0x624)

/-- The opcode table's own words: each instruction is read back from the word of its row, at the keyboard channel
(log 9); a queue entry that fits the FRAME row's mask is read as that FRAME (log 10). -/
def Obligations.TableWordsDecode : Prop :=
  decodeTableWord 8 (tableWord (.clkh .kbd)) = some (.clkh .kbd) ∧
  decodeTableWord 8 (tableWord (.shift .kbd)) = some (.shift .kbd) ∧
  decodeTableWord 8 (tableWord (.clkl .kbd)) = some (.clkl .kbd) ∧
  (∀ code : RawCode, decodeTableWord 16 (tableWord (.frame code)) = some (.frame code)) ∧
  (∀ w : FramedWord, (bitAt w 10 = 0 ∨ bitAt w 0 = 1) →
    decodeTableWord 16 (tableWord (.enq .kbd w)) = some (.enq .kbd w)) ∧
  (∀ w : FramedWord, bitAt w 10 = 1 → bitAt w 0 = 0 →
    decodeTableWord 16 w.toNat = some (.frame (codeOf w)))

/-- Log 2: the instruction of a table word placed after reset is what the very next step runs. -/
def Obligations.PlacedWordRunsFirst : Prop :=
  ∀ (nbits w : Nat) (i : Instr), decodeTableWord nbits w = some i →
    ∃ t, exec i { State.reset.withFetchWord nbits w with schedule := [] } = .next t ∧
      step (State.reset.withFetchWord nbits w) = .next { t with script := [] }

/-! ### Invariants -/

/-- R32, R16, R17, R27, R137, R140, R166: every step keeps the invariant of the machine, from every state that meets it. -/
def Obligations.EveryStepKeepsTheInvariant : Prop :=
  ∀ s t : State, s.Inv → step s = .next t → t.Inv

/-- The power-up state of every legal instance meets the invariant, and so does the state after reset (R150). -/
def Obligations.ResetMeetsTheInvariant : Prop :=
  (∀ p : Params, p.wf = true → (State.powerUp p).Inv) ∧ State.reset.Inv

/-- R32 item 6, R159, R28, R29, R6: no step stops a started engine, lowers the control line, leaves the halt, changes
the configuration or shortens the log. -/
def Obligations.NothingIsTakenBack : Prop :=
  ∀ s t : State, step s = .next t →
    (∀ c, (s.eng c).en = true → (t.eng c).en = true) ∧ (s.ctl = 1#1 → t.ctl = 1#1) ∧
    (s.halted = true → t.halted = true) ∧ t.cfg = s.cfg ∧ ∃ more, t.diag = s.diag ++ more
end

