-- ==== Sys2Proof/Laws/State.lean ====
section
/-! SUPPORT. One lemma per field per update of the state and of a channel, each true by rfl, so that no later proof
unfolds a record update. -/

namespace Sys2Proof.Machine

variable (s : State) (c : Channel) (e : Engine) (w : FramedWord)

@[simp] theorem eng_kbd : s.eng .kbd = s.kbd := rfl
@[simp] theorem eng_mse : s.eng .mse = s.mse := rfl
@[simp] theorem setEng_kbd_kbd : (s.setEng .kbd e).kbd = e := rfl
@[simp] theorem setEng_kbd_mse : (s.setEng .kbd e).mse = s.mse := rfl
@[simp] theorem setEng_mse_kbd : (s.setEng .mse e).kbd = s.kbd := rfl
@[simp] theorem setEng_mse_mse : (s.setEng .mse e).mse = e := rfl

@[simp] theorem eng_setEng_self : (s.setEng c e).eng c = e := by cases c <;> rfl

@[simp] theorem eng_setEng_other : (s.setEng c e).eng c.other = s.eng c.other := by cases c <;> rfl

theorem eng_setEng_of_ne {c c' : Channel} (h : c' ≠ c) : (s.setEng c e).eng c' = s.eng c' := by
  cases c <;> cases c' <;> first | rfl | exact absurd rfl h

@[simp] theorem setEng_eng : s.setEng c (s.eng c) = s := by cases c <;> rfl

@[simp] theorem setEng_setEng (e' : Engine) : (s.setEng c e).setEng c e' = s.setEng c e' := by cases c <;> rfl

/-- Writes to the two channels commute (41_serial_clock_engine.md R101). -/
theorem setEng_comm (e' : Engine) : (s.setEng .kbd e).setEng .mse e' = (s.setEng .mse e').setEng .kbd e := rfl

@[simp] theorem setEng_ctl : (s.setEng c e).ctl = s.ctl := by cases c <;> rfl
@[simp] theorem setEng_halted : (s.setEng c e).halted = s.halted := by cases c <;> rfl
@[simp] theorem setEng_diag : (s.setEng c e).diag = s.diag := by cases c <;> rfl
@[simp] theorem setEng_cfg : (s.setEng c e).cfg = s.cfg := by cases c <;> rfl
@[simp] theorem setEng_ctlDone : (s.setEng c e).ctlDone = s.ctlDone := by cases c <;> rfl
@[simp] theorem setEng_codeI : (s.setEng c e).codeI = s.codeI := by cases c <;> rfl
@[simp] theorem setEng_script : (s.setEng c e).script = s.script := by cases c <;> rfl
@[simp] theorem setEng_schedule : (s.setEng c e).schedule = s.schedule := by cases c <;> rfl
@[simp] theorem setEng_drawn : (s.setEng c e).drawn = s.drawn := by cases c <;> rfl

@[simp] theorem loadWord_en : (loadWord w e).en = e.en := rfl
@[simp] theorem loadWord_upc : (loadWord w e).upc = e.upc := rfl
@[simp] theorem loadWord_dly : (loadWord w e).dly = e.dly := rfl
@[simp] theorem loadWord_osr : (loadWord w e).osr = w := rfl
@[simp] theorem loadWord_cnt : (loadWord w e).cnt = 0 := rfl
@[simp] theorem loadWord_clk : (loadWord w e).clk = e.clk := rfl
@[simp] theorem loadWord_dat : (loadWord w e).dat = e.dat := rfl
@[simp] theorem loadWord_q : (loadWord w e).q = e.q := rfl
@[simp] theorem loadWord_phase : (loadWord w e).phase = e.phase := rfl
@[simp] theorem loadWord_early : (loadWord w e).early = e.early := rfl
@[simp] theorem loadWord_begun : (loadWord w e).begun = true := rfl

@[simp] theorem shiftOut_en : (shiftOut e).en = e.en := rfl
@[simp] theorem shiftOut_upc : (shiftOut e).upc = 2 := rfl
@[simp] theorem shiftOut_dly : (shiftOut e).dly = e.dly := rfl
@[simp] theorem shiftOut_osr : (shiftOut e).osr = e.osr >>> 1 := rfl
@[simp] theorem shiftOut_cnt : (shiftOut e).cnt = e.cnt + 1 := rfl
@[simp] theorem shiftOut_clk : (shiftOut e).clk = e.clk := rfl
@[simp] theorem shiftOut_dat : (shiftOut e).dat = bitAt e.osr 0 := rfl
@[simp] theorem shiftOut_q : (shiftOut e).q = e.q := rfl
@[simp] theorem shiftOut_phase : (shiftOut e).phase = e.phase := rfl
@[simp] theorem shiftOut_early : (shiftOut e).early = e.early := rfl
@[simp] theorem shiftOut_begun : (shiftOut e).begun = e.begun := rfl

@[simp] theorem started_en : (started e).en = true := rfl
@[simp] theorem started_upc : (started e).upc = 0 := rfl
@[simp] theorem started_dly : (started e).dly = 0 := rfl
@[simp] theorem started_osr : (started e).osr = e.osr := rfl
@[simp] theorem started_cnt : (started e).cnt = 11 := rfl
@[simp] theorem started_clk : (started e).clk = e.clk := rfl
@[simp] theorem started_dat : (started e).dat = e.dat := rfl
@[simp] theorem started_q : (started e).q = [] := rfl
@[simp] theorem started_phase : (started e).phase = 0 := rfl
@[simp] theorem started_early : (started e).early = none := rfl
@[simp] theorem started_begun : (started e).begun = false := rfl

@[simp] theorem delayTick_en : (delayTick e).en = e.en := rfl
@[simp] theorem delayTick_upc : (delayTick e).upc = e.upc := rfl
@[simp] theorem delayTick_dly : (delayTick e).dly = e.dly - 1 := rfl
@[simp] theorem delayTick_osr : (delayTick e).osr = e.osr := rfl
@[simp] theorem delayTick_cnt : (delayTick e).cnt = e.cnt := rfl
@[simp] theorem delayTick_clk : (delayTick e).clk = e.clk := rfl
@[simp] theorem delayTick_dat : (delayTick e).dat = e.dat := rfl
@[simp] theorem delayTick_q : (delayTick e).q = e.q := rfl
@[simp] theorem delayTick_phase : (delayTick e).phase = e.phase := rfl
@[simp] theorem delayTick_early : (delayTick e).early = e.early := rfl
@[simp] theorem delayTick_begun : (delayTick e).begun = e.begun := rfl

@[simp] theorem halt_kbd : (s.halt).kbd = s.kbd := rfl
@[simp] theorem halt_mse : (s.halt).mse = s.mse := rfl
@[simp] theorem halt_ctl : (s.halt).ctl = s.ctl := rfl
@[simp] theorem halt_halted : (s.halt).halted = true := rfl
@[simp] theorem halt_diag : (s.halt).diag = s.diag := rfl
@[simp] theorem halt_cfg : (s.halt).cfg = s.cfg := rfl
@[simp] theorem halt_ctlDone : (s.halt).ctlDone = s.ctlDone := rfl
@[simp] theorem halt_codeI : (s.halt).codeI = s.codeI := rfl
@[simp] theorem halt_script : (s.halt).script = s.script := rfl
@[simp] theorem halt_schedule : (s.halt).schedule = s.schedule := rfl
@[simp] theorem halt_drawn : (s.halt).drawn = s.drawn := rfl
@[simp] theorem halt_eng : (s.halt).eng c = s.eng c := by cases c <;> rfl

@[simp] theorem retire_kbd : (s.retire).kbd = s.kbd := rfl
@[simp] theorem retire_mse : (s.retire).mse = s.mse := rfl
@[simp] theorem retire_ctl : (s.retire).ctl = s.ctl := rfl
@[simp] theorem retire_halted : (s.retire).halted = s.halted := rfl
@[simp] theorem retire_diag : (s.retire).diag = s.diag := rfl
@[simp] theorem retire_cfg : (s.retire).cfg = s.cfg := rfl
@[simp] theorem retire_ctlDone : (s.retire).ctlDone = s.ctlDone := rfl
@[simp] theorem retire_codeI : (s.retire).codeI = s.codeI := rfl
@[simp] theorem retire_script : (s.retire).script = s.script.tail := rfl
@[simp] theorem retire_schedule : (s.retire).schedule = s.schedule := rfl
@[simp] theorem retire_drawn : (s.retire).drawn = s.drawn := rfl
@[simp] theorem retire_eng : (s.retire).eng c = s.eng c := by cases c <;> rfl

@[simp] theorem raiseCtl_kbd : (s.raiseCtl).kbd = s.kbd := rfl
@[simp] theorem raiseCtl_mse : (s.raiseCtl).mse = s.mse := rfl
@[simp] theorem raiseCtl_ctl : (s.raiseCtl).ctl = 1#1 := rfl
@[simp] theorem raiseCtl_halted : (s.raiseCtl).halted = s.halted := rfl
@[simp] theorem raiseCtl_diag : (s.raiseCtl).diag = s.diag := rfl
@[simp] theorem raiseCtl_cfg : (s.raiseCtl).cfg = s.cfg := rfl
@[simp] theorem raiseCtl_ctlDone : (s.raiseCtl).ctlDone = true := rfl
@[simp] theorem raiseCtl_codeI : (s.raiseCtl).codeI = s.codeI := rfl
@[simp] theorem raiseCtl_script : (s.raiseCtl).script = s.script := rfl
@[simp] theorem raiseCtl_schedule : (s.raiseCtl).schedule = s.schedule := rfl
@[simp] theorem raiseCtl_drawn : (s.raiseCtl).drawn = s.drawn := rfl
@[simp] theorem raiseCtl_eng : (s.raiseCtl).eng c = s.eng c := by cases c <;> rfl

variable (turns : List Turn) (n : Nat)

@[simp] theorem takeOff_kbd : (s.takeOff turns n).kbd = s.kbd := rfl
@[simp] theorem takeOff_mse : (s.takeOff turns n).mse = s.mse := rfl
@[simp] theorem takeOff_ctl : (s.takeOff turns n).ctl = s.ctl := rfl
@[simp] theorem takeOff_halted : (s.takeOff turns n).halted = s.halted := rfl
@[simp] theorem takeOff_diag : (s.takeOff turns n).diag = s.diag := rfl
@[simp] theorem takeOff_cfg : (s.takeOff turns n).cfg = s.cfg := rfl
@[simp] theorem takeOff_ctlDone : (s.takeOff turns n).ctlDone = s.ctlDone := rfl
@[simp] theorem takeOff_codeI : (s.takeOff turns n).codeI = s.codeI := rfl
@[simp] theorem takeOff_script : (s.takeOff turns n).script = s.script := rfl
@[simp] theorem takeOff_schedule : (s.takeOff turns n).schedule = turns := rfl
@[simp] theorem takeOff_drawn : (s.takeOff turns n).drawn = n := rfl
@[simp] theorem takeOff_eng : (s.takeOff turns n).eng c = s.eng c := by cases c <;> rfl
@[simp] theorem takeOff_asleep : asleep c (s.takeOff turns n) = asleep c s := by cases c <;> rfl
@[simp] theorem takeOff_self : s.takeOff s.schedule s.drawn = s := rfl

end Sys2Proof.Machine
end

