-- ==== Sys2Proof/Laws/Ops.lean ====
section
/-! SUPPORT. What each shared operation can do, said once. -/

namespace Sys2Proof.Machine

variable {e e' : Engine} {w : FramedWord}

theorem full_eq_false_iff {depth : Nat} : full depth e = false ↔ e.q.length < depth := by simp [full]

theorem full_eq_true_iff {depth : Nat} : full depth e = true ↔ depth ≤ e.q.length := by simp [full]

theorem exhausted_iff : exhausted e = true ↔ e.cnt.val = 11 := decide_eq_true_iff

theorem not_exhausted_iff : exhausted e = false ↔ e.cnt.val < 11 := by
  have := e.cnt.isLt
  rw [← Bool.not_eq_true, exhausted_iff]
  omega

/-- The window of the early pop: a word begun and exhausted, and SHIFT not next (41_serial_clock_engine.md R105). -/
theorem popWindow_iff : popWindow e = true ↔ e.begun = true ∧ e.cnt.val = 11 ∧ e.upc ≠ 1 := by
  simp [popWindow, exhausted_iff, and_assoc]

/-- A refill answers the waiting early entry, or else the queue head, and takes it off. -/
theorem takeWord_cases (h : takeWord e = some (w, e')) :
    (e.early = some w ∧ e' = { e with early := none }) ∨
    (e.early = none ∧ ∃ rest, e.q = w :: rest ∧ e' = { e with q := rest }) := by
  rcases he : e.early with _ | w₀
  · rcases hq : e.q with _ | ⟨a, rest⟩ <;> simp_all [takeWord, qPop]
  · simp_all [takeWord]

/-- There is no word to refill from exactly when the queue is empty and no early entry waits. -/
theorem takeWord_eq_none_iff : takeWord e = none ↔ starved e = true := by
  rcases he : e.early with _ | w₀ <;> rcases hq : e.q with _ | ⟨a, rest⟩ <;>
    simp [takeWord, qPop, starved, empty, he, hq]

/-- A refill touches nothing but the queue and the early entry. -/
theorem takeWord_frame (h : takeWord e = some (w, e')) :
    e'.en = e.en ∧ e'.upc = e.upc ∧ e'.dly = e.dly ∧ e'.osr = e.osr ∧ e'.cnt = e.cnt ∧ e'.clk = e.clk ∧
      e'.dat = e.dat ∧ e'.phase = e.phase ∧ e'.begun = e.begun ∧ e'.early = none := by
  rcases takeWord_cases h with ⟨_, rfl⟩ | ⟨h₀, _, _, rfl⟩ <;> simp_all

/-- Adding one to a bit counter below 11 does not wrap (10_state.md R15). -/
theorem cnt_succ {k : Fin 12} (h : k.val < 11) : (k + 1).val = k.val + 1 := by
  rw [Fin.val_add]
  simp
  omega

end Sys2Proof.Machine
end

