-- ==== Sys2Proof/Laws/Exec.lean ====
section
/-! SUPPORT. What a fetched instruction, a tick, a producer's turn and the startup agent's turn can do, said once: one
lemma per operation, which later proofs cite instead of unfolding it. -/

namespace Sys2Proof.Machine

variable {s s' : State} {c : Channel}

/-- A selector of the store decodes to the micro-step of its index (30_encoding.md R66). -/
theorem decode_selector (c : Channel) (k : Fin 3) :
    decode (.store c) (selectorBytes k) = .ok (if k = 0 then .clkh c else if k = 1 then .shift c else .clkl c) := by
  fin_cases k <;> rfl

/-- Running the micro-step at index `k`. -/
theorem runFetched_selector (c : Channel) (k : Fin 3) (s : State) :
    runFetched (.store c) (selectorBytes k) s =
      if k = 0 then execClkh c s else if k = 1 then execShift c s else execClkl c s := by
  fin_cases k <;> rfl

/-- The low and high bytes of a word give the word back. -/
theorem wordOfBytes_bytes (w : FramedWord) : wordOfBytes (loByte w) (hiByte w) = w := by
  apply BitVec.eq_of_getLsbD_eq
  intro i hi
  simp only [wordOfBytes, loByte, hiByte, BitVec.getLsbD_or, BitVec.getLsbD_shiftLeft, BitVec.getLsbD_setWidth,
    BitVec.getLsbD_ushiftRight]
  by_cases h : i < 8
  · simp [h, hi]
  · have h8 : 8 + (i - 8) = i := by omega
    have h3 : i - 8 < 8 := by omega
    have h11 : i - 8 < 11 := by omega
    simp [h, h8, hi, h3, h11]

theorem hiByte_lt (w : FramedWord) : (hiByte w).toNat < 8 := by
  have := w.isLt
  simp [hiByte, Nat.shiftRight_eq_div_pow]
  omega

/-- A port request always decodes, to its own operation (R68). -/
theorem runFetched_request (r : Request) (s : State) :
    runFetched r.source r.bytes s =
      match r with
      | .code code => execFrame code s
      | .word c w => execEnq c w s := by
  cases r with
  | code code => rfl
  | word c w =>
    simp [runFetched, Request.source, Request.bytes, decode, hiByte_lt, wordOfBytes_bytes, exec]

/-- What SHIFT can do: a plain shift, a refill and a shift, or a stall. -/
theorem execShift_cases (h : execShift c s = .next s') :
    ((s.eng c).cnt.val < 11 ∧ s' = s.setEng c (shiftOut (s.eng c))) ∨
    (∃ w e, (s.eng c).cnt.val = 11 ∧ takeWord (s.eng c) = some (w, e) ∧
      s' = s.setEng c (shiftOut (loadWord w e))) ∨
    ((s.eng c).cnt.val = 11 ∧ starved (s.eng c) = true ∧ s' = s) := by
  unfold execShift at h
  split at h
  next hx =>
    split at h
    next w e ht =>
      cases h
      exact .inr (.inl ⟨w, e, exhausted_iff.1 hx, ht, rfl⟩)
    next ht =>
      cases h
      exact .inr (.inr ⟨exhausted_iff.1 hx, takeWord_eq_none_iff.1 ht, rfl⟩)
  next hx =>
    cases h
    exact .inl ⟨not_exhausted_iff.1 (by simpa using hx), rfl⟩

/-- SHIFT never stops (41_serial_clock_engine.md R100). -/
theorem execShift_next (c : Channel) (s : State) : ∃ t, execShift c s = .next t := by
  unfold execShift
  split
  · split <;> exact ⟨_, rfl⟩
  · exact ⟨_, rfl⟩

/-- What ENQ can do when it is given a meaning: a push, or a hold. -/
theorem execEnq_cases {w : FramedWord} (h : execEnq c w s = .next s') :
    s.halted = false ∧ (s.eng c).en = true ∧
      (((s.eng c).q.length < s.cfg.qDepth ∧ s' = s.setEng c { s.eng c with q := (s.eng c).q ++ [w] }) ∨
       (s.cfg.qDepth ≤ (s.eng c).q.length ∧ s' = s)) := by
  unfold execEnq at h
  split at h
  · cases h
  next hh =>
    split at h
    · cases h
    next he =>
      refine ⟨by simpa using hh, by simpa using he, ?_⟩
      unfold qPush at h
      split at h <;> rename_i hq <;> split at hq <;> simp_all

/-- What a tick can do (R91). -/
theorem tick_cases (h : tick c s = .next s') :
    (asleep c s = true ∧ s' = s) ∨
    (asleep c s = false ∧
      (((s.eng c).dly ≠ 0 ∧ s' = s.setEng c (delayTick (s.eng c))) ∨
       ((s.eng c).dly = 0 ∧ (s.eng c).upc = 0 ∧ execClkh c s = .next s') ∨
       ((s.eng c).dly = 0 ∧ (s.eng c).upc = 1 ∧ execShift c s = .next s') ∨
       ((s.eng c).dly = 0 ∧ (s.eng c).upc = 2 ∧ execClkl c s = .next s'))) := by
  unfold tick at h
  split at h
  next ha => cases h; exact .inl ⟨ha, rfl⟩
  next ha =>
    refine .inr ⟨by simpa using ha, ?_⟩
    split at h
    next hd => cases h; exact .inl ⟨hd, rfl⟩
    next hd =>
      rw [runFetched_selector] at h
      have hd' : (s.eng c).dly = 0 := by simpa using hd
      generalize hk : (s.eng c).upc = k at h
      fin_cases k <;> simp_all

/-- The early pop changes nothing, or moves the queue head of a channel in the window aside (R105). -/
theorem earlyPop_cases (c : Channel) (s : State) :
    earlyPop c s = s ∨
    ∃ w rest, asleep c s = false ∧ popWindow (s.eng c) = true ∧ (s.eng c).early = none ∧ (s.eng c).q = w :: rest ∧
      earlyPop c s = s.setEng c { s.eng c with q := rest, early := some w } := by
  unfold earlyPop
  split
  · exact .inl rfl
  next hg =>
    simp only [Bool.or_eq_true, not_or, Bool.not_eq_true, Bool.not_eq_false', Option.isSome_eq_false_iff,
      Option.isNone_iff_eq_none] at hg
    rcases hq : (s.eng c).q with _ | ⟨w, rest⟩
    · exact .inl (by simp [qPop, hq])
    · exact .inr ⟨w, rest, hg.1.1, hg.1.2, hg.2, rfl, by simp [qPop, hq]⟩

/-- What a system-clock period at a divider can do (60_exceptions.md R140). -/
theorem sysClk_cases (h : sysClk c s = .next s') :
    (asleep c s = true ∧ s' = s) ∨
    (asleep c s = false ∧ (s.eng c).phase + 1 < s.cfg.div ∧
      s' = s.setEng c { s.eng c with phase := (s.eng c).phase + 1 }) ∨
    (asleep c s = false ∧ s.cfg.div ≤ (s.eng c).phase + 1 ∧
      tick c (s.setEng c { s.eng c with phase := 0 }) = .next s') := by
  unfold sysClk at h
  split at h
  next ha => cases h; exact .inl ⟨ha, rfl⟩
  next ha =>
    have ha' : asleep c s = false := by simpa using ha
    split at h
    next hp => cases h; exact .inr (.inl ⟨ha', hp, rfl⟩)
    next hp => exact .inr (.inr ⟨ha', by omega, h⟩)

/-- What the startup agent's turn can do (70_reset_and_hazards.md R152). -/
theorem startupTurn_cases (ev : StartupEvent) (s : State) :
    (s.halted = true ∧ startupTurn ev s = s) ∨
    (s.halted = false ∧ s.cfg.startupOk = false ∧ startupTurn ev s = s.halt) ∨
    (s.halted = false ∧ s.cfg.startupOk = true ∧ ev = .ctlHigh ∧ s.ctlDone = true ∧ startupTurn ev s = s) ∨
    (s.halted = false ∧ s.cfg.startupOk = true ∧ ev = .ctlHigh ∧ s.ctlDone = false ∧
      startupTurn ev s = s.raiseCtl) ∨
    (∃ c, s.halted = false ∧ s.cfg.startupOk = true ∧ ev = .start c ∧ (s.eng c).en = true ∧
      startupTurn ev s = s) ∨
    (∃ c, s.halted = false ∧ s.cfg.startupOk = true ∧ ev = .start c ∧ (s.eng c).en = false ∧
      startupTurn ev s = s.setEng c (started (s.eng c))) := by
  cases hh : s.halted with
  | true => exact .inl ⟨rfl, by simp [startupTurn, hh]⟩
  | false =>
    cases ho : s.cfg.startupOk with
    | false => exact .inr (.inl ⟨rfl, rfl, by simp [startupTurn, hh, ho]⟩)
    | true =>
      cases ev with
      | ctlHigh =>
        cases hd : s.ctlDone with
        | true => exact .inr (.inr (.inl ⟨rfl, rfl, rfl, rfl, by simp [startupTurn, ctlHigh, hh, ho, hd]⟩))
        | false => exact .inr (.inr (.inr (.inl ⟨rfl, rfl, rfl, rfl, by simp [startupTurn, ctlHigh, hh, ho, hd]⟩)))
      | start c =>
        cases he : (s.eng c).en with
        | true =>
          exact .inr (.inr (.inr (.inr (.inl ⟨c, rfl, rfl, rfl, he, by simp [startupTurn, startChannel, hh, ho, he]⟩))))
        | false =>
          exact .inr (.inr (.inr (.inr (.inr
            ⟨c, rfl, rfl, rfl, he, by simp [startupTurn, startChannel, hh, ho, he]⟩))))

/-- What the producer's turn can do (42_producer_interface.md R110 to R112). -/
theorem produce_cases (h : produce s = .next s') :
    (s.script = [] ∧ s' = s) ∨
    (∃ r rest, s.script = r :: rest ∧ awaitsStartup r s = true ∧ s' = s) ∨
    (∃ code rest, s.script = .code code :: rest ∧ producing s = true ∧
      s' = { s with codeI := code, diag := s.diag ++ [.info code, .debug (frame code)], script := rest }) ∨
    (∃ c w rest, s.script = .word c w :: rest ∧ awaitsStartup (.word c w) s = false ∧ s.halted = false ∧
      (s.eng c).en = true ∧ s.cfg.qDepth ≤ (s.eng c).q.length ∧ s' = s) ∨
    (∃ c w rest, s.script = .word c w :: rest ∧ awaitsStartup (.word c w) s = false ∧ s.halted = false ∧
      (s.eng c).en = true ∧ (s.eng c).q.length < s.cfg.qDepth ∧
      s' = { s.setEng c { s.eng c with q := (s.eng c).q ++ [w] } with script := rest }) := by
  unfold produce at h
  split at h
  next hs => cases h; exact .inl ⟨hs, rfl⟩
  next r rest hs =>
    split at h
    next ha => cases h; exact .inr (.inl ⟨r, rest, hs, ha, rfl⟩)
    next ha =>
      rw [runFetched_request] at h
      cases r with
      | code code =>
        simp only [execFrame, held, Bool.false_eq_true, ↓reduceIte, Host.Outcome.next.injEq] at h
        subst h
        exact .inr (.inr (.inl ⟨code, rest, hs, by simpa [awaitsStartup] using ha, by simp [State.retire, hs]⟩))
      | word c w =>
        simp only at h
        cases hx : execEnq c w s with
        | fault r => rw [hx] at h; cases h
        | refused r => rw [hx] at h; cases h
        | next t =>
          rw [hx] at h
          obtain ⟨hh, he, hc⟩ := execEnq_cases hx
          have ha' : awaitsStartup (.word c w) s = false := by simpa using ha
          simp only [held, Host.Outcome.next.injEq] at h
          subst h
          rcases hc with ⟨hl, rfl⟩ | ⟨hl, rfl⟩
          · refine .inr (.inr (.inr (.inr ⟨c, w, rest, hs, ha', hh, he, hl, ?_⟩)))
            simp [full_eq_false_iff.2 hl, State.retire, hs]
          · refine .inr (.inr (.inr (.inl ⟨c, w, rest, hs, ha', hh, he, hl, ?_⟩)))
            simp [full_eq_true_iff.2 hl]

end Sys2Proof.Machine
end

