-- ==== Sys2Proof/Laws/PerInstr.lean ====
section
/-! SUPPORT. Families of statements with one lemma per constructor of Instr. -/

namespace Sys2Proof.Laws

/-- The encoding has the width of its format, and the table word has at most eleven bits: a selector is one byte that
leaves the bits above it 0, an eight-bit code is one byte, an eleven-bit entry two (30_encoding.md R69). -/
def EncodedWidth.Statement (i : Instr) : Prop :=
  (encode i).bytes.length = (if i.mnemonic = "ENQ" then 2 else 1) ∧ tableWord i < 2 ^ 11

theorem EncodedWidth.clkh (c : Channel) : EncodedWidth.Statement (.clkh c) := ⟨rfl, by simp [tableWord]⟩
theorem EncodedWidth.shift (c : Channel) : EncodedWidth.Statement (.shift c) := ⟨rfl, by simp [tableWord]⟩
theorem EncodedWidth.clkl (c : Channel) : EncodedWidth.Statement (.clkl c) := ⟨rfl, by simp [tableWord]⟩
theorem EncodedWidth.frame (code : RawCode) : EncodedWidth.Statement (.frame code) :=
  ⟨rfl, (Sys2Proof.frame code).isLt⟩
theorem EncodedWidth.enq (c : Channel) (w : FramedWord) : EncodedWidth.Statement (.enq c w) := ⟨rfl, w.isLt⟩

end Sys2Proof.Laws
end

