-- ==== Sys2Proof/Laws/Step.lean ====
section
/-! SUPPORT. What a tick and a whole step can do to one channel and to the rest of the state, said once, so that a claim
about every step is a case analysis over these lemmas and never unfolds `step`. -/

namespace Sys2Proof.Machine

variable {s t : State} {c : Channel}

/-- The moves of an awake engine in one tick (41_serial_clock_engine.md R91). -/
inductive TickMove : Engine → Engine → Prop where
  | delay (e : Engine) (hd : e.dly ≠ 0) : TickMove e (delayTick e)
  | clkh (e : Engine) (hd : e.dly = 0) (hu : e.upc = 0) : TickMove e { e with clk := 1#1, upc := 1 }
  | shift (e : Engine) (hd : e.dly = 0) (hu : e.upc = 1) (hc : e.cnt.val < 11) : TickMove e (shiftOut e)
  | refill (e : Engine) (w : FramedWord) (e' : Engine) (hd : e.dly = 0) (hu : e.upc = 1) (hc : e.cnt.val = 11)
      (ht : takeWord e = some (w, e')) : TickMove e (shiftOut (loadWord w e'))
  | stall (e : Engine) (hd : e.dly = 0) (hu : e.upc = 1) (hc : e.cnt.val = 11) (hs : starved e = true) : TickMove e e
  | clkl (e : Engine) (hd : e.dly = 0) (hu : e.upc = 2) : TickMove e { e with clk := 0#1, dly := 1, upc := 0 }

theorem asleep_eq_false_iff : asleep c s = false ↔ s.halted = false ∧ (s.eng c).en = true := by
  simp [asleep]

/-- A tick changes nothing, or makes one move of its own channel. -/
theorem tick_move (h : tick c s = .next t) :
    (asleep c s = true ∧ t = s) ∨
    (asleep c s = false ∧ ∃ e, TickMove (s.eng c) e ∧ t = s.setEng c e) := by
  rcases tick_cases h with h | ⟨ha, ⟨hd, rfl⟩ | ⟨hd, hu, hx⟩ | ⟨hd, hu, hx⟩ | ⟨hd, hu, hx⟩⟩
  · exact .inl h
  · exact .inr ⟨ha, _, .delay _ hd, rfl⟩
  · cases hx
    exact .inr ⟨ha, _, .clkh _ hd hu, rfl⟩
  · refine .inr ⟨ha, ?_⟩
    rcases execShift_cases hx with ⟨hc, rfl⟩ | ⟨w, e, hc, ht, rfl⟩ | ⟨hc, hs, rfl⟩
    · exact ⟨_, .shift _ hd hu hc, rfl⟩
    · exact ⟨_, .refill _ _ _ hd hu hc ht, rfl⟩
    · exact ⟨_, .stall _ hd hu hc hs, by simp⟩
  · cases hx
    exact .inr ⟨ha, _, .clkl _ hd hu, rfl⟩

/-- What a turn can do to the state with the turn already taken off. -/
inductive TurnMove (turn : Turn) (s : State) : State → Prop where
  | same : TurnMove turn s s
  | start (c : Channel) (ht : turn = .startup (.start c)) (hh : s.halted = false) (ho : s.cfg.startupOk = true)
      (he : (s.eng c).en = false) : TurnMove turn s (s.setEng c (started (s.eng c)))
  | raise (ht : turn = .startup .ctlHigh) (hh : s.halted = false) (ho : s.cfg.startupOk = true)
      (hd : s.ctlDone = false) : TurnMove turn s s.raiseCtl
  | halt (hh : s.halted = false) (ho : s.cfg.startupOk = false) : TurnMove turn s s.halt
  | tick (c : Channel) (p : Nat) (e : Engine) (hp : p = (s.eng c).phase ∨ p = 0) (ha : asleep c s = false)
      (hm : TickMove { s.eng c with phase := p } e) : TurnMove turn s (s.setEng c e)
  | count (c : Channel) (ha : asleep c s = false) (hp : (s.eng c).phase + 1 < s.cfg.div) :
      TurnMove turn s (s.setEng c { s.eng c with phase := (s.eng c).phase + 1 })
  | early (c : Channel) (w : FramedWord) (rest : List FramedWord) (ha : asleep c s = false)
      (hc : popWindow (s.eng c) = true) (hn : (s.eng c).early = none) (hq : (s.eng c).q = w :: rest) :
      TurnMove turn s (s.setEng c { s.eng c with q := rest, early := some w })
  | framed (code : RawCode) (more : List Request) (ht : turn = .produce) (hs : s.script = .code code :: more)
      (hp : producing s = true) :
      TurnMove turn s
        { s with codeI := code, diag := s.diag ++ [.info code, .debug (frame code)], script := more }
  | enqueued (c : Channel) (w : FramedWord) (more : List Request) (ht : turn = .produce)
      (hs : s.script = .word c w :: more) (ha : asleep c s = false) (hl : (s.eng c).q.length < s.cfg.qDepth) :
      TurnMove turn s { s.setEng c { s.eng c with q := (s.eng c).q ++ [w] } with script := more }

theorem takeTurn_move {turn : Turn} (h : takeTurn turn s = .next t) : TurnMove turn s t := by
  cases turn with
  | startup ev =>
    cases h
    rcases startupTurn_cases ev s with ⟨_, h⟩ | ⟨h₁, h₂, h⟩ | ⟨_, _, _, _, h⟩ | ⟨h₁, h₂, h₃, h₄, h⟩ |
      ⟨c, _, _, _, _, h⟩ | ⟨c, h₁, h₂, h₃, h₄, h⟩ <;> rw [h]
    · exact .same
    · exact .halt h₁ h₂
    · exact .same
    · exact .raise (by rw [h₃]) h₁ h₂ h₄
    · exact .same
    · exact .start c (by rw [h₃]) h₁ h₂ h₄
  | tick c =>
    rcases tick_move h with ⟨_, rfl⟩ | ⟨ha, e, hm, rfl⟩
    · exact .same
    · exact .tick c _ e (.inl rfl) ha hm
  | sysClk c =>
    rcases sysClk_cases h with ⟨_, rfl⟩ | ⟨ha, hp, rfl⟩ | ⟨ha, hp, hk⟩
    · exact .same
    · exact .count c ha hp
    · rcases tick_move hk with ⟨ha', _⟩ | ⟨_, e, hm, rfl⟩
      · rw [asleep_eq_false_iff] at ha
        simp [asleep, ha] at ha'
      · rw [setEng_setEng]
        exact .tick c 0 e (.inr rfl) ha (by simpa using hm)
  | earlyPop c =>
    cases h
    rcases earlyPop_cases c s with h | ⟨w, rest, ha, hc, hn, hq, h⟩ <;> rw [h]
    · exact .same
    · exact .early c w rest ha hc hn hq
  | produce =>
    rcases produce_cases h with ⟨_, rfl⟩ | ⟨_, _, _, _, rfl⟩ | ⟨code, rest, hs, hp, rfl⟩ |
      ⟨_, _, _, _, _, _, _, _, rfl⟩ | ⟨c, w, rest, hs, _, hh, he, hl, rfl⟩
    · exact .same
    · exact .same
    · exact .framed code rest rfl hs hp
    · exact .same
    · exact .enqueued c w rest rfl hs (asleep_eq_false_iff.2 ⟨hh, he⟩) hl

/-- Taking a turn off touches the schedule and the counter of drawn turns, and nothing else. -/
theorem nextTurn_frame (s : State) :
    ∃ turns n, (nextTurn s).2 = s.takeOff turns n := by
  unfold nextTurn
  split
  · exact ⟨_, _, rfl⟩
  · exact ⟨_, _, rfl⟩

/-- A step is the move of the next turn, from the same state but for the schedule and its counter. -/
theorem step_move (h : step s = .next t) :
    ∃ turns n, (nextTurn s).2 = s.takeOff turns n ∧
      TurnMove (nextTurn s).1 (s.takeOff turns n) t := by
  obtain ⟨turns, n, hn⟩ := nextTurn_frame s
  exact ⟨turns, n, hn, hn ▸ takeTurn_move h⟩

/-- What a turn can do to one channel. -/
inductive ChannelMove (turn : Turn) (s : State) (c : Channel) : Engine → Prop where
  | same : ChannelMove turn s c (s.eng c)
  | start (hh : s.halted = false) (ho : s.cfg.startupOk = true) (he : (s.eng c).en = false) :
      ChannelMove turn s c (started (s.eng c))
  | tick (p : Nat) (e : Engine) (hp : p = (s.eng c).phase ∨ p = 0) (ha : asleep c s = false)
      (hm : TickMove { s.eng c with phase := p } e) : ChannelMove turn s c e
  | count (ha : asleep c s = false) (hp : (s.eng c).phase + 1 < s.cfg.div) :
      ChannelMove turn s c { s.eng c with phase := (s.eng c).phase + 1 }
  | early (w : FramedWord) (rest : List FramedWord) (ha : asleep c s = false)
      (hc : popWindow (s.eng c) = true) (hn : (s.eng c).early = none) (hq : (s.eng c).q = w :: rest) :
      ChannelMove turn s c { s.eng c with q := rest, early := some w }
  | enqueued (w : FramedWord) (more : List Request) (ht : turn = .produce)
      (hs : s.script = .word c w :: more) (ha : asleep c s = false) (hl : (s.eng c).q.length < s.cfg.qDepth) :
      ChannelMove turn s c { s.eng c with q := (s.eng c).q ++ [w] }

/-- A write to channel `d` is a move of channel `c` when it is a move of `d`, since it leaves the others. -/
theorem ChannelMove.setEng {turn : Turn} {d : Channel} {e : Engine} (h : ChannelMove turn s d e) (c : Channel) :
    ChannelMove turn s c ((s.setEng d e).eng c) := by
  by_cases hcd : c = d
  · subst hcd
    simpa using h
  · rw [eng_setEng_of_ne _ _ hcd]
    exact .same

theorem TurnMove.channel {turn : Turn} (h : TurnMove turn s t) (c : Channel) : ChannelMove turn s c (t.eng c) := by
  cases h with
  | same => exact .same
  | start d ht hh ho he => exact ChannelMove.setEng (.start hh ho he) c
  | raise => rw [raiseCtl_eng]; exact .same
  | halt => rw [halt_eng]; exact .same
  | tick d p e hp ha hm => exact ChannelMove.setEng (.tick p e hp ha hm) c
  | count d ha hp => exact ChannelMove.setEng (.count ha hp) c
  | early d w rest ha hc hn hq => exact ChannelMove.setEng (.early w rest ha hc hn hq) c
  | framed code more =>
    have : ({ s with codeI := code, diag := s.diag ++ [.info code, .debug (frame code)], script := more } :
        State).eng c = s.eng c := by cases c <;> rfl
    rw [this]
    exact .same
  | enqueued d w more ht hs ha hl =>
    have h := ChannelMove.setEng (.enqueued w more ht hs ha hl) c
    have : ({ s.setEng d { s.eng d with q := (s.eng d).q ++ [w] } with script := more } : State).eng c =
        (s.setEng d { s.eng d with q := (s.eng d).q ++ [w] }).eng c := by cases c <;> rfl
    rw [this]
    exact h

/-- What a step can do to one channel. -/
theorem step_channel (h : step s = .next t) (c : Channel) :
    ∃ turns n, ChannelMove (nextTurn s).1 (s.takeOff turns n) c (t.eng c) := by
  obtain ⟨turns, n, _, hm⟩ := step_move h
  exact ⟨turns, n, hm.channel c⟩

end Sys2Proof.Machine
end

