-- ==== Sys2Proof/Laws/Run.lean ====
section
/-! SUPPORT. Runs of the whole machine: what depends on the schedule alone, counting the ticks of a run, and what fairness
(41_serial_clock_engine.md R106) gives a liveness claim. -/

namespace Sys2Proof.Machine

variable {s t : State} {c : Channel}

/-- The invariant does not speak of the schedule. -/
theorem State.Inv.with_schedule (h : s.Inv) (turns : List Turn) : { s with schedule := turns }.Inv := by
  obtain ⟨h₁, h₂, h₃, h₄, h₅, h₆, h₇, h₈⟩ := h
  refine ⟨h₁, fun c => ?_, fun c => ?_, fun c => ?_, h₅, h₆, h₇, h₈⟩
  · cases c
    exacts [h₂ .kbd, h₂ .mse]
  · cases c
    exacts [h₃ .kbd, h₃ .mse]
  · cases c
    exacts [h₄ .kbd, h₄ .mse]

/-- A move of an awake engine leaves it started. -/
theorem TickMove.en {e e' : Engine} (h : TickMove e e') : e'.en = e.en := by
  cases h with
  | refill w e' hd hu hc ht => simpa using (takeWord_frame ht).1
  | _ => rfl

/-- No turn stops a started engine (10_state.md R32 item 6). -/
theorem ChannelMove.en {turn : Turn} {e : Engine} (h : ChannelMove turn s c e) (he : (s.eng c).en = true) :
    e.en = true := by
  cases h with
  | start => rfl
  | tick p e _ _ hm => rw [hm.en]; exact he
  | _ => exact he

/-- No turn halts an instance that starts, and none writes the configuration (10_state.md R28, 00_scope.md R4). -/
theorem TurnMove.keeps {turn : Turn} (h : TurnMove turn s t) (ho : s.cfg.startupOk = true) :
    t.halted = s.halted ∧ t.cfg = s.cfg := by
  cases h with
  | halt _ hf => simp [ho] at hf
  | _ => simp

/-- A tick answers a next state, and leaves the engine awake and the schedule as it is (R100). -/
theorem tick_awake (c : Channel) (s : State) (ha : asleep c s = false) :
    ∃ t, tick c s = .next t ∧ asleep c t = false ∧ t.schedule = s.schedule := by
  have hn : ∃ t, tick c s = .next t := by
    unfold tick
    rw [if_neg (by simp [ha])]
    split
    · exact ⟨_, rfl⟩
    · rw [runFetched_selector]
      split
      · exact ⟨_, rfl⟩
      · split
        · exact execShift_next c s
        · exact ⟨_, rfl⟩
  obtain ⟨t, ht⟩ := hn
  refine ⟨t, ht, ?_⟩
  rcases tick_move ht with ⟨_, rfl⟩ | ⟨_, e, hm, rfl⟩
  · exact ⟨ha, rfl⟩
  · obtain ⟨hh, he⟩ := asleep_eq_false_iff.1 ha
    exact ⟨asleep_eq_false_iff.2 ⟨by simpa using hh, by simpa [he] using hm.en⟩, by simp⟩

/-- A step that is a `tick(c)` makes one move of channel `c`, with the divider as it was or wrapped. -/
theorem tickIsNext_move (h : step s = .next t) (hn : tickIsNext c s = true) :
    ∃ p, (p = (s.eng c).phase ∨ p = 0) ∧ TickMove { s.eng c with phase := p } (t.eng c) := by
  obtain ⟨turns, n, hs⟩ := nextTurn_frame s
  simp only [tickIsNext, Bool.and_eq_true, Bool.not_eq_true', Bool.or_eq_true, decide_eq_true_eq] at hn
  obtain ⟨ha, ht | ⟨ht, hd⟩⟩ := hn <;> rw [step, ht, hs] at h
  · rcases tick_move h with ⟨ha', _⟩ | ⟨_, e, hm, rfl⟩
    · simp [ha] at ha'
    · exact ⟨_, .inl rfl, by simpa using hm⟩
  · rcases sysClk_cases h with ⟨ha', _⟩ | ⟨_, hp, _⟩ | ⟨_, _, hk⟩
    · simp [ha] at ha'
    · simp at hp
      omega
    · rcases tick_move hk with ⟨ha', _⟩ | ⟨_, e, hm, rfl⟩
      · rw [asleep_eq_false_iff] at ha
        simp [asleep, ha] at ha'
      · exact ⟨0, .inr rfl, by simpa using hm⟩

/-- A schedule of `n` ticks of an awake engine is `n` ticks of it. -/
theorem ticksIn_replicate (n : Nat) (ha : asleep c s = false) (hs : s.schedule = List.replicate n (.tick c)) :
    ticksIn c n s = n := by
  induction n generalizing s with
  | zero => rfl
  | succ n ih =>
    have hn : nextTurn s = (.tick c, s.takeOff (List.replicate n (.tick c)) s.drawn) := by
      simp [nextTurn, hs, List.replicate_succ]
    obtain ⟨t, ht, ha', hs'⟩ := tick_awake c (s.takeOff (List.replicate n (.tick c)) s.drawn) (by simpa using ha)
    have hstep : step s = .next t := by simpa [step, hn, takeTurn] using ht
    have hnext : tickIsNext c s = true := by simp [tickIsNext, ha, hn]
    simp only [ticksIn, hstep, hnext, if_true, ih ha' (by simpa using hs')]
    omega

theorem run_add (m n : Nat) (h : run m s = .next t) : run (m + n) s = run n t := by
  induction m generalizing s with
  | zero => cases h; simp
  | succ m ih =>
    rw [Nat.add_right_comm]
    simp only [run] at h ⊢
    split at h
    · exact ih h
    · cases h
    · cases h

/-- Ticks are counted run by run. -/
theorem ticksIn_add (m n : Nat) (h : run m s = .next t) : ticksIn c (m + n) s = ticksIn c m s + ticksIn c n t := by
  induction m generalizing s with
  | zero => cases h; simp [ticksIn]
  | succ m ih =>
    rw [Nat.add_right_comm]
    simp only [run, ticksIn] at h ⊢
    split at h
    next u hu => simp only [ih h]; omega
    · cases h
    · cases h

/-- An awake engine of an instance that starts stays awake. -/
theorem step_awake (h : step s = .next t) (ho : s.cfg.startupOk = true) (ha : asleep c s = false) :
    asleep c t = false ∧ t.cfg.startupOk = true := by
  obtain ⟨turns, n, -, hm⟩ := step_move h
  obtain ⟨hh, he⟩ := asleep_eq_false_iff.1 ha
  obtain ⟨h₁, h₂⟩ := hm.keeps (by simpa using ho)
  exact ⟨asleep_eq_false_iff.2 ⟨by simpa [h₁] using hh, (hm.channel c).en (by simpa using he)⟩, by simpa [h₂] using ho⟩

/-- Up to its last tick a run does not stop. -/
theorem run_of_ticksIn (m : Nat) (h : 0 < ticksIn c m s) : ∃ n u, run n s = .next u ∧ 0 < ticksIn c n s := by
  induction m generalizing s with
  | zero => cases h
  | succ m ih =>
    simp only [ticksIn] at h
    split at h
    next t ht =>
      by_cases hn : tickIsNext c s = true
      · exact ⟨1, t, by simp [run, ht], by simp [ticksIn, ht, hn]⟩
      · rw [if_neg hn, Nat.zero_add] at h
        obtain ⟨n, u, hu, hk⟩ := ih h
        exact ⟨n + 1, u, by simpa [run, ht] using hu, by simp [ticksIn, ht, hk]⟩
    · cases h
    · cases h

theorem run_awake (n : Nat) (h : run n s = .next t) (ho : s.cfg.startupOk = true) (ha : asleep c s = false) :
    asleep c t = false := by
  induction n generalizing s with
  | zero => cases h; exact ha
  | succ n ih =>
    simp only [run] at h
    split at h
    next u hu => exact ih h (step_awake hu ho ha).2 (step_awake hu ho ha).1
    · cases h
    · cases h

/-- Under fairness an awake engine ticks as often as a claim asks (R106): the premise of a bound in ticks is met. -/
theorem Fair.enough_ticks (hf : Fair s) (ho : s.cfg.startupOk = true) (ha : asleep c s = false) (k : Nat) :
    ∃ n t, run n s = .next t ∧ k ≤ ticksIn c n s := by
  induction k with
  | zero => exact ⟨0, s, rfl, Nat.zero_le _⟩
  | succ k ih =>
    obtain ⟨n, t, hr, hk⟩ := ih
    obtain ⟨m, hm⟩ := hf n t hr c (run_awake n hr ho ha)
    obtain ⟨m', u, hu, hpos⟩ := run_of_ticksIn m hm
    refine ⟨n + m', u, by rw [run_add n m' hr, hu], ?_⟩
    rw [ticksIn_add n m' hr]
    omega

end Sys2Proof.Machine
end

