-- ==== Sys2Proof/Tests/Slice0.lean ====
section
/-! SUPPORT. Tests: the decoder on words written out from the spec's encodings, one step of each instruction with the
results of spec/95_test_vectors.md (the vector is named at each), the checks of WellFormed refusing an ill-formed term
each, the placed words, and for every statement with hypotheses a state that meets them. -/

namespace Sys2Proof.Tests

open Sys2Proof Sys2Proof.Machine

/-! ### Small states -/

/-- An instance with `QDEPTH = 2`, `DIV = 3`, after a good startup. -/
def cfg : Params := ⟨2, 3, ⟨1, 0⟩, ⟨0, 1⟩, 0, true⟩

/-- A quiescent channel that has sent a word. -/
def idle : Engine := ⟨true, 1, 0, 0, 11, 1, 1, [], 0, none, true⟩

/-- Both channels quiescent, the keyboard channel holding `e`. -/
def mk (e : Engine) : State := ⟨e, idle, 1, false, [], cfg, true, 0, [], [], 0⟩

/-- The keyboard channel of an answer. -/
def kbdOf : Host.Outcome State Fault Refusal → Option Engine
  | .next s => some s.kbd
  | .fault _ => none
  | .refused _ => none

/-- The refusal of an answer. -/
def refusalOf : Host.Outcome State Fault Refusal → Option Refusal
  | .next _ => none
  | .fault _ => none
  | .refused r => some r

/-- The state `s` with `t` as its next turn. -/
def turn (t : Turn) (s : State) : State := { s with schedule := [t] }

/-! ### WellFormed refuses -/

theorem test_wf_selector : selectorWf 2 = true ∧ selectorWf 3 = false := by decide
theorem test_wf_entry : entryWf 2047 = true ∧ entryWf 2048 = false := by decide
theorem test_wf_params : cfg.wf = true ∧ { cfg with qDepth := 0 }.wf = false ∧ { cfg with div := 0 }.wf = false := by
  decide
/-- R4: 0 Hz is no frequency. -/
theorem test_wf_fSys : fSysWf 125000000 ∧ ¬ fSysWf 0 := by norm_num [fSysWf]
theorem test_wf_instr : (Instr.enq .mse 0x7FF).wf = true := by decide
/-- Vectors X2, X4 to X6 and X9: a bad start, a bad parity, a bad stop bit are refused. -/
theorem test_proper_frame : disassemble 0x624 = some 0x12 ∧ disassemble 0x402 = some 0x01 ∧ isProperFrame 0x003 = false ∧
    isProperFrame 0x400 = false ∧ isProperFrame 0x012 = false := by decide

/-! ### Decoding -/

/-- R66: selector 00. -/
theorem test_decode_clkh : decodeTableWord 8 0b00 = some (.clkh .kbd) := by decide
/-- R66: selector 01. -/
theorem test_decode_shift : decodeTableWord 8 0b01 = some (.shift .kbd) := by decide
/-- R66: selector 10. -/
theorem test_decode_clkl : decodeTableWord 8 0b10 = some (.clkl .kbd) := by decide
/-- R66, R68: selector 11 is no step. -/
theorem test_decode_no_step : decodeTableWord 8 0b11 = none := by decide
/-- R60, vector F7: stop 1, parity 1, code 00010010, start 0. -/
theorem test_decode_frame : decodeTableWord 16 0b11000100100 = some (.frame 0x12) := by decide
/-- The match value of the table's FRAME row. -/
theorem test_decode_frame_match : decodeTableWord 16 0x400 = some (.frame 0x00) := by decide
/-- R62: an entry with start bit 1. -/
theorem test_decode_enq : decodeTableWord 16 0b01111111111 = some (.enq .kbd 0x3FF) := by decide
/-- The match value of the table's ENQ row. -/
theorem test_decode_enq_match : decodeTableWord 16 0 = some (.enq .kbd 0) := by decide
/-- U13: a bit above bit 10. -/
theorem test_decode_wide : decodeTableWord 16 0x800 = none := by decide

/-! ### One step of each instruction -/

/-- Vector E1. -/
theorem test_clkh : kbdOf (tick .kbd (mk { idle with upc := 0, cnt := 5, osr := 0x031, clk := 0, dat := 0 })) =
    some { idle with upc := 1, cnt := 5, osr := 0x031, clk := 1, dat := 0 } := by decide
/-- Vector E4. -/
theorem test_shift_plain : kbdOf (exec (.shift .kbd) (mk { idle with cnt := 2, osr := 0x189, dat := 0 })) =
    some { idle with upc := 2, cnt := 3, osr := 0x0C4, dat := 1 } := by decide
/-- Vector E8. -/
theorem test_shift_refill : kbdOf (exec (.shift .kbd) (mk { idle with q := [0x7E0, 0x624] })) =
    some { idle with upc := 2, cnt := 1, osr := 0x3F0, q := [0x624], dat := 0 } := by decide
/-- Vector E13, and the delay tick E15 after it. -/
theorem test_clkl : kbdOf (exec (.clkl .kbd) (mk { idle with upc := 2, cnt := 3, osr := 0x0C4 })) =
      some { idle with upc := 0, dly := 1, cnt := 3, osr := 0x0C4, clk := 0 } ∧
    kbdOf (tick .kbd (mk { idle with upc := 0, dly := 1, cnt := 3, osr := 0x0C4, clk := 0 })) =
      some { idle with upc := 0, dly := 0, cnt := 3, osr := 0x0C4, clk := 0 } := by decide
/-- Vectors F1 to F5 and 90_conflicts.md C1. -/
theorem test_frame_values : frame 0x00 = 0x600 ∧ frame 0xFF = 0x7FE ∧ frame 0x01 = 0x402 ∧ frame 0x80 = 0x500 ∧
    frame 0x7F = 0x4FE := by decide
/-- Vector F24. -/
theorem test_frame_diag : ∃ t, exec (.frame 0x12) (mk idle) = .next t ∧ t.diag = [.info 0x12, .debug 0x624] ∧
    t.kbd = idle := ⟨_, rfl, by decide, rfl⟩
/-- Vectors Q2 and Q3. -/
theorem test_enq : kbdOf (exec (.enq .kbd 0x624) (mk { idle with q := [0x7E0] })) =
      some { idle with q := [0x7E0, 0x624] } ∧
    kbdOf (exec (.enq .kbd 0x438) (mk { idle with q := [0x7E0, 0x624] })) =
      some { idle with q := [0x7E0, 0x624] } := by decide
/-- Vectors Q7 and Q8. -/
theorem test_enq_refused : refusalOf (exec (.enq .kbd 0x624) (mk { idle with en := false })) =
      some (.enqNotStarted .kbd) ∧
    refusalOf (exec (.enq .kbd 0x624) { mk idle with halted := true }) = some (.enqHalted .kbd) := by decide
/-- Vector ST1. -/
theorem test_start : ∀ c, startupTurn (.start c) (State.powerUp cfg) =
    (State.powerUp cfg).setEng c { (State.powerUp cfg).eng c with en := true } := by
  intro c
  cases c <;> rfl

/-- U10, R28: after a failed startup a FRAME of the producer has no step. -/
theorem test_halted_frame : ∃ t, step { turn .produce (mk idle) with halted := true, script := [.code 0x12] } = .next t ∧
    t.diag = [] ∧ t.script = [.code 0x12] := ⟨_, rfl, rfl, rfl⟩
/-- R105, U8: no early pop before the first SHIFT after START(c); one after the SHIFT that sends bit 10. -/
theorem test_early_pop_window :
    (earlyPop .kbd (mk { started idle with q := [0x624] })).kbd.q = [0x624] ∧
    (earlyPop .kbd (mk { idle with upc := 2, q := [0x624] })).kbd.q = [] := by decide

/-! ### Placed words run as the first instruction after reset -/

theorem test_placed_clkh : (kbdOf (step (State.reset.withFetchWord 8 0))).map (·.clk) = some 1 := by decide
theorem test_placed_shift : (kbdOf (step (State.reset.withFetchWord 8 1))).map (·.upc) = some 1 := by decide
theorem test_placed_clkl : (kbdOf (step (State.reset.withFetchWord 8 2))).map (·.dly) = some 1 := by decide
theorem test_placed_frame : ∃ t, step (State.reset.withFetchWord 16 0x624) = .next t ∧
    t.diag = [.info 0x12, .debug 0x624] := ⟨_, rfl, by decide⟩
theorem test_placed_enq : (kbdOf (step (State.reset.withFetchWord 16 0x3FF))).map (·.q) = some [0x3FF] := by decide

/-! ### States that meet the hypotheses of the statements -/

theorem idle_inv : idle.Inv cfg := by constructor <;> decide

/-- The state whose keyboard channel is `e` meets the invariant when the channel does. -/
theorem mk_inv {e : Engine} (hen : e.en = true) (hb : e.begun = true) (h : e.Inv cfg) : (mk e).Inv where
  params_wf := test_wf_params.1
  started_ok := by
    intro c _
    cases c
    · exact h
    · exact idle_inv
  unstarted_ok := by
    intro c hc
    cases c
    · exact absurd (show e.en = false from hc) (by simp [hen])
    · cases hc
  dat_until_begun := by
    intro c hc
    cases c
    · exact absurd (show e.begun = false from hc) (by simp [hb])
    · cases hc
  ctl_done := fun _ => rfl
  ctl_not_done := nofun
  failed_startup := nofun
  halted_failed := nofun

/-- A keyboard channel about to run CLKH in the middle of a word. -/
def beforeClkh : Engine := { idle with upc := 0, cnt := 5, osr := 0x031, clk := 0 }
/-- A keyboard channel about to send the last bit of a word. -/
def lastBit : Engine := { idle with cnt := 10, osr := 0x001 }
/-- A keyboard channel about to run CLKL after the first bit of a word. -/
def beforeClkl : Engine := { idle with upc := 2, cnt := 1, osr := 0x312 }
/-- A keyboard channel about to take the head of a full queue. -/
def fullQueue : Engine := { idle with q := [0x7E0, 0x624] }
/-- A keyboard channel that has just started, its clock line high. -/
def fresh : Engine := { idle with upc := 0, begun := false }
/-- A keyboard channel with a full queue that a SHIFT has left exhausted. -/
def sentFull : Engine := { idle with upc := 2, q := [0x7E0, 0x624] }
/-- A keyboard channel with a delay tick pending. -/
def delayed : Engine := { idle with upc := 0, dly := 1, cnt := 3, osr := 0x0C4, clk := 0 }

theorem beforeClkl_inv : beforeClkl.Inv cfg := by constructor <;> decide
theorem fullQueue_inv : fullQueue.Inv cfg := by constructor <;> decide
theorem lastBit_inv : lastBit.Inv cfg := by constructor <;> decide
theorem delayed_inv : delayed.Inv cfg := by constructor <;> decide

theorem witness_ProperFramesAreTheImagesOfFrame : disassemble (0x624 : FramedWord) = some 0x12 ∧
    frame 0x12 = frame 0x12 := by decide
theorem witness_FrameCompletes : ∃ t, exec (.frame 0xFF) (mk idle) = .next t := ⟨_, rfl⟩
theorem witness_ClkhCompletes : ((mk fresh).halted = false ∧ (mk fresh).kbd.en = true ∧ (mk fresh).kbd.dly = 0 ∧
    (mk fresh).kbd.upc = 0 ∧ (mk fresh).kbd.clk = 1) ∧ ∃ t, exec (.clkh .kbd) (mk fresh) = .next t :=
  ⟨by decide, _, rfl⟩
/-- Both ends of the range of the bit counter: 0 and 10. -/
theorem witness_ShiftPlainCompletes : ({ idle with cnt := 0 } : Engine).cnt.val < 11 ∧ lastBit.cnt.val < 11 ∧
    lastBit.en = true ∧ lastBit.dly = 0 ∧ lastBit.upc = 1 ∧ lastBit.Inv cfg :=
  ⟨by decide, by decide, rfl, rfl, rfl, lastBit_inv⟩
theorem witness_ShiftRefillCompletes : (mk fullQueue).kbd.cnt.val = 11 ∧ (mk fullQueue).kbd.early = none ∧
    (mk fullQueue).kbd.q = 0x7E0 :: [0x624] ∧ (mk fullQueue).kbd.q.length ≤ cfg.qDepth := by decide
theorem witness_ShiftLoadsTheEarlyEntry :
    ({ idle with early := some 0x624 } : Engine).cnt.val = 11 ∧
    ({ idle with early := some 0x624 } : Engine).early = some 0x624 := by decide
theorem witness_ShiftStallChangesNothing : idle.cnt.val = 11 ∧ idle.early = none ∧ idle.q = [] ∧ idle.en = true ∧
    idle.dly = 0 ∧ idle.upc = 1 := by decide
theorem witness_EarlyPopKeepsThePins :
    ((mk sentFull).halted = false ∧ sentFull.en = true ∧ sentFull.begun = true ∧ sentFull.cnt.val = 11 ∧
      sentFull.upc ≠ 1 ∧ sentFull.early = none ∧ sentFull.q = 0x7E0 :: [0x624] ∧
      sentFull.q.length ≤ cfg.qDepth) ∧
    fresh.begun = false ∧ lastBit.cnt.val < 11 ∧ idle.upc = 1 ∧
    (∃ t, ticks .kbd 3 (mk sentFull) = .next t) ∧ ∃ u, ticks .kbd 3 (earlyPop .kbd (mk sentFull)) = .next u :=
  ⟨by decide, rfl, by decide, rfl, ⟨_, rfl⟩, _, rfl⟩
theorem witness_ClklCompletes : beforeClkl.Inv cfg ∧ beforeClkl.upc = 2 ∧ beforeClkl.en = true ∧ beforeClkl.dly = 0 :=
  ⟨beforeClkl_inv, by decide⟩
theorem witness_MicroProgramTableIsWhatRuns :
    (microProgram fresh.upc = ⟨.setClk 1, 0⟩ ∧ ∃ t, tick .kbd (mk fresh) = .next t) ∧
    (microProgram beforeClkl.upc = ⟨.setClk 0, 1⟩ ∧ ∃ t, tick .kbd (mk beforeClkl) = .next t) ∧
    (microProgram lastBit.upc = ⟨.shiftOut 1, 0⟩ ∧ stalled lastBit = false ∧ ∃ t, tick .kbd (mk lastBit) = .next t) :=
  ⟨⟨by decide, _, rfl⟩, ⟨by decide, _, rfl⟩, by decide, by decide, _, rfl⟩
/-- One entry below the capacity, and at it. -/
theorem witness_EnqCompletes : ({ idle with q := [0x624] } : Engine).q.length < cfg.qDepth ∧ idle.en = true := by decide
theorem witness_EnqHoldsWhileFull : (mk fullQueue).halted = false ∧ fullQueue.en = true ∧
    full cfg.qDepth fullQueue = true := by decide
theorem witness_EnqRefusedUnlessStarted : { mk idle with halted := true }.halted = true ∧
    (mk { idle with en := false }).kbd.en = false ∧ (mk idle).kbd.en = true ∧ (mk idle).halted = false := by decide
theorem witness_EnqReadyTellsCompletion : enqReadyO (mk idle) .kbd = true ∧ enqReadyO (mk fullQueue) .kbd = false ∧
    (mk idle).halted = false ∧
    enqDataI { turn .produce (mk idle) with script := [.word .kbd 0x624] } .kbd = some 0x624 ∧
    enqDataI { turn .produce (mk fullQueue) with script := [.word .kbd 0x624] } .kbd = some 0x624 := by decide
theorem witness_QPushOnlyByEnq : ∃ t, step { turn .produce (mk idle) with script := [.word .kbd 0x624] } = .next t ∧
    (mk idle).kbd.q.length < t.kbd.q.length ∧ (mk fullQueue).cfg.qDepth ≤ fullQueue.q.length := ⟨_, rfl, by decide⟩
theorem witness_QPopTakesTheHead :
    (∃ t, step (turn (.tick .kbd) (mk fullQueue)) = .next t ∧ t.kbd.q.length < fullQueue.q.length) ∧
    (∃ t, step (turn (.earlyPop .kbd) (mk sentFull)) = .next t ∧ t.kbd.q.length < sentFull.q.length) ∧
    fullQueue.en = true := ⟨⟨_, rfl, by decide⟩, ⟨_, rfl, by decide⟩, rfl⟩
theorem witness_PushAndPopCommute : ({ idle with q := [0x624] } : Engine).q = 0x624 :: [] ∧
    ({ idle with q := [0x624] } : Engine).q.length < cfg.qDepth ∧ idle.en = true ∧ idle.dly = 0 ∧ idle.upc = 1 ∧
    idle.cnt.val = 11 ∧ idle.early = none := by decide
theorem witness_BackPressure : ((mk idle).Inv ∧ (mk idle).kbd.en = true ∧ (mk idle).kbd.q = []) ∧
    (fullQueue.upc = 1 ∧ fullQueue.en = true ∧
      ∃ t, step (turn (.tick .kbd) (mk fullQueue)) = .next t ∧ t.kbd.q.length < fullQueue.q.length) ∧
    ∃ t, step (turn (.tick .kbd) (mk { fullQueue with begun := false })) = .next t ∧
      t.kbd.q.length < fullQueue.q.length :=
  ⟨⟨mk_inv rfl rfl idle_inv, rfl, rfl⟩, ⟨rfl, rfl, _, rfl, by decide⟩, _, rfl, by decide⟩
/-- A state in which the producer has its turn at an ENQ: the queue full, and not full; and one before CTLHIGH. -/
theorem witness_BlockedProducerWaits : startupDone (mk fullQueue) = true ∧ full cfg.qDepth fullQueue = true ∧
    full cfg.qDepth idle = false ∧
    { turn .produce (mk fullQueue) with script := [.word .kbd 0x438] }.schedule = .produce :: [] ∧
    { turn .produce (mk fullQueue) with script := [.word .kbd 0x438] }.script = .word .kbd 0x438 :: [] ∧
    startupDone { turn .produce (mk idle) with ctlDone := false } = false ∧
    { turn .produce (mk idle) with ctlDone := false }.halted = false := by decide
theorem witness_SendFramesThenEnqueues :
    startupDone { mk idle with script := send .kbd 0x12 ++ [], schedule := [.produce, .produce] } = true ∧
    (mk idle).halted = false ∧ full cfg.qDepth idle = false ∧ full cfg.qDepth fullQueue = true := by decide
theorem witness_InstructionFrames : (∃ t, exec (.clkh .mse) (mk idle) = .next t) ∧
    (∃ t, exec (.shift .kbd) (mk fullQueue) = .next t) ∧ (∃ t, exec (.clkl .kbd) (mk beforeClkl) = .next t) ∧
    (∃ t, exec (.frame 0) (mk idle) = .next t) ∧ ∃ t, exec (.enq .mse 0) (mk idle) = .next t :=
  ⟨⟨_, rfl⟩, ⟨_, rfl⟩, ⟨_, rfl⟩, ⟨_, rfl⟩, _, rfl⟩
theorem witness_TickDispatch : (mk idle).halted = false ∧ delayed.en = true ∧ delayed.dly ≠ 0 ∧
    fresh.dly = 0 ∧ fresh.upc = 0 ∧ idle.upc = 1 ∧ beforeClkl.upc = 2 ∧ { idle with en := false }.en = false := by decide
theorem witness_StepRunsTheDecodedInstruction :
    ((turn (.tick .kbd) (mk beforeClkl)).schedule = .tick .kbd :: [] ∧
      decode (.store .kbd) (selectorBytes beforeClkl.upc) = .ok (.clkl .kbd) ∧ (Instr.clkl .kbd).wf = true) ∧
    (mk idle).schedule = [] ∧
    (awaitsStartup (.word .kbd 0x624) (mk idle) = false ∧
      decode (Request.word .kbd 0x624).source (Request.word .kbd 0x624).bytes = .ok (.enq .kbd 0x624) ∧
      ∃ t, exec (.enq .kbd 0x624) { mk idle with schedule := [] } = .next t) ∧
    (awaitsStartup (.word .kbd 0x624) { mk idle with halted := true } = false ∧
      exec (.enq .kbd 0x624) { mk idle with halted := true } = .refused (.enqHalted .kbd)) :=
  ⟨⟨rfl, rfl, rfl⟩, rfl, ⟨rfl, rfl, _, rfl⟩, rfl, rfl⟩
theorem witness_OnlyEnqAfterFailedStartupIsRefused :
    step { turn .produce (mk idle) with halted := true, script := [.word .mse 0x600] } =
      .refused (.enqHalted .mse) := rfl
theorem witness_ControlTransfers : ∃ t, step (turn (.tick .kbd) (mk beforeClkl)) = .next t ∧
    t.kbd.upc ≠ beforeClkl.upc ∧ beforeClkl.en = true := ⟨_, rfl, by decide, rfl⟩
theorem witness_CoarseStatesAlternate : lastBit.Inv cfg ∧ delayed.Inv cfg ∧
    (∃ t, tick .kbd (mk lastBit) = .next t ∧ coarse t.kbd ≠ coarse lastBit) ∧
    (∃ t, tick .kbd (mk delayed) = .next t ∧ coarse t.kbd ≠ coarse delayed) :=
  ⟨lastBit_inv, delayed_inv, ⟨_, rfl, by decide⟩, _, rfl, by decide⟩
theorem witness_PinsChangeOnlyInTheirSteps :
    (∃ t, step (turn (.tick .kbd) (mk beforeClkl)) = .next t ∧ t.kbd.clk ≠ beforeClkl.clk) ∧
    (∃ t, step (turn (.tick .kbd) (mk beforeClkh)) = .next t ∧ t.kbd.clk ≠ beforeClkh.clk) ∧
    (∃ t, step (turn (.tick .kbd) (mk fullQueue)) = .next t ∧ t.kbd.dat ≠ fullQueue.dat) ∧
    (∃ t, step { turn (.startup .ctlHigh) (mk idle) with ctl := 0, ctlDone := false } = .next t ∧ t.ctl ≠ 0) :=
  ⟨⟨_, rfl, by decide⟩, ⟨_, rfl, by decide⟩, ⟨_, rfl, by decide⟩, _, rfl, by decide⟩
theorem witness_BitsGoOutInEnqueueOrder : (mk fullQueue).kbd.en = true ∧
    (∃ t, step (turn (.tick .kbd) (mk fullQueue)) = .next t ∧ unsent fullQueue = t.kbd.dat :: unsent t.kbd) ∧
    ∃ t, step { turn .produce (mk idle) with script := [.word .kbd 0x624] } = .next t ∧
      unsent t.kbd = unsent idle ++ wordBits 0x624 := ⟨rfl, ⟨_, rfl, by decide⟩, _, rfl, by decide⟩
theorem witness_TurnsLeaveTheOtherChannel : (∃ t, takeTurn (.tick .kbd) (mk fullQueue) = .next t) ∧
    (∃ t, takeTurn (.sysClk .kbd) (mk fullQueue) = .next t) ∧
    (∃ t, takeTurn (.earlyPop .kbd) (mk fullQueue) = .next t) ∧
    ∃ t, takeTurn (.startup (.start .kbd)) (State.powerUp cfg) = .next t :=
  ⟨⟨_, rfl⟩, ⟨_, rfl⟩, ⟨_, rfl⟩, _, rfl⟩
/-- Two states that differ in everything but the keyboard channel. -/
theorem witness_ChannelDependsOnItselfAlone :
    (∃ t, ticks .kbd 3 (mk fullQueue) = .next t) ∧
    (∃ t, ticks .kbd 3 { mk fullQueue with mse := lastBit, diag := [.info 0], ctl := 0 } = .next t) ∧
    (mk fullQueue).eng .kbd = { mk fullQueue with mse := lastBit, diag := [.info 0], ctl := 0 }.eng .kbd :=
  ⟨⟨_, rfl⟩, ⟨_, rfl⟩, rfl⟩
theorem witness_TicksOfTheChannelsCommute :
    (∃ a t, tick .kbd (mk fullQueue) = .next a ∧ tick .mse a = .next t) ∧
    ∃ a t, tick .kbd (mk fullQueue) = .next a ∧ exec (.enq .mse 0x600) a = .next t :=
  ⟨⟨_, _, rfl, rfl⟩, _, _, rfl, rfl⟩
theorem witness_DiagnosticsNeverMatter : ∃ t, step (turn (.tick .kbd) (mk fullQueue)) = .next t := ⟨_, rfl⟩
theorem witness_StartEvent : (State.powerUp cfg).halted = false ∧ (State.powerUp cfg).cfg.startupOk = true ∧
    (State.powerUp cfg).kbd.en = false ∧ (mk idle).kbd.en = true ∧ (mk idle).cfg.startupOk = true := by decide
theorem witness_CtlHighOnceAndForAll : ((State.powerUp cfg).halted = false ∧ (State.powerUp cfg).cfg.startupOk = true ∧
    (State.powerUp cfg).ctlDone = false) ∧
    ∃ t, (turn (.startup .ctlHigh) (mk idle)).ctlDone = true ∧ step (turn (.startup .ctlHigh) (mk idle)) = .next t :=
  ⟨by decide, _, rfl, rfl⟩
theorem witness_FailedStartupFreezesThePins :
    (State.powerUp { cfg with startupOk := false }).cfg.startupOk = false ∧
    ∃ t, step (turn (.tick .kbd) { mk idle with halted := true }) = .next t := ⟨rfl, _, rfl⟩
theorem witness_StartupOrderDoesNotMatter : cfg.startupOk = true ∧
    List.Perm [StartupEvent.ctlHigh, .start .mse, .start .kbd] [.start .kbd, .start .mse, .ctlHigh] := by decide
theorem witness_FirstTicksAfterStart : (mk fresh).halted = false ∧ fresh.en = true ∧ fresh.upc = 0 ∧ fresh.dly = 0 ∧
    fresh.cnt.val = 11 ∧ fresh.q = [] ∧ fresh.early = none ∧ 1 ≤ 1 := by decide
theorem witness_StalledEngineRests : (mk idle).halted = false ∧ stalled (mk idle).kbd = true := by decide
theorem witness_EnqLiftsTheStall : idle.Inv cfg ∧ (mk idle).halted = false ∧ quiescent (mk idle).kbd = true ∧
    1 ≤ (mk idle).cfg.qDepth := ⟨idle_inv, by decide⟩
theorem witness_OneBitSlot : (mk beforeClkh).halted = false ∧ beforeClkh.en = true ∧ beforeClkh.upc = 0 ∧
    beforeClkh.dly = 0 ∧ beforeClkh.cnt.val < 11 ∧
    (fresh.upc = 0 ∧ fresh.cnt.val = 11 ∧ { fresh with q := [0x624] }.early = none ∧
      { fresh with q := [0x624] }.q = 0x624 :: []) ∧
    { sentFull with upc := 0, early := some 0x400 }.early = some 0x400 := by decide
/-- At both ends of the range of k: 1 and 11. -/
theorem witness_KthShiftSendsBitK : fullQueue.en = true ∧ fullQueue.upc = 1 ∧ fullQueue.dly = 0 ∧ fullQueue.clk = 1 ∧
    fullQueue.cnt.val = 11 ∧ fullQueue.early = none ∧ fullQueue.q = 0x7E0 :: [0x624] ∧ (1 ≤ 1 ∧ 1 ≤ 11) ∧
    (1 ≤ 11 ∧ 11 ≤ 11) := by decide
/-- An empty queue, and a full one. -/
theorem witness_QueueGoesOutWordByWord : (fullQueue.en = true ∧ fullQueue.upc = 1 ∧ fullQueue.dly = 0 ∧
    fullQueue.clk = 1 ∧ fullQueue.cnt.val = 11 ∧ fullQueue.early = none ∧ fullQueue.q.getLast? = some 0x624) ∧
    idle.en = true ∧ idle.upc = 1 ∧ idle.dly = 0 ∧ idle.clk = 1 ∧ idle.cnt.val = 11 ∧ idle.early = none := by decide
/-- The longest wait: a word just begun, another behind it. -/
theorem witness_HeadBeginsWithin44Ticks : ({ beforeClkl with q := [0x624] } : Engine).Inv cfg ∧
    ({ beforeClkl with q := [0x624] } : Engine).early = none ∧
    ({ beforeClkl with q := [0x624] } : Engine).q = 0x624 :: [] ∧ beforeClkl.en = true ∧
    ({ mk fullQueue with schedule := List.replicate 48 (.tick .kbd) }.Inv ∧
      48 ≤ ticksIn .kbd 48 { mk fullQueue with schedule := List.replicate 48 (.tick .kbd) }) :=
  ⟨by constructor <;> decide, rfl, rfl, rfl, (mk_inv rfl rfl fullQueue_inv).with_schedule _,
    (ticksIn_replicate 48 rfl rfl).ge⟩
theorem witness_DividerMakesTicks : (mk fullQueue).halted = false ∧ fullQueue.en = true ∧ fullQueue.phase = 0 ∧
    1 ≤ cfg.div ∧ 2 < cfg.div := by decide
theorem witness_BitRate : cfg.wf = true ∧ fSysWf 125000000 ∧ IsBitRate 12 cfg 1 ∧
    ({ cfg with div := 2500 } : Params).div = 2500 := by
  refine ⟨by decide, test_wf_fSys.1, ?_, rfl⟩
  norm_num [IsBitRate, IsRate, slotTicks, stepTicks, microProgram, Config.dlyClkh, Config.dlyShift, Config.dlyClkl, cfg]
theorem witness_DecodeOfEncode : (Instr.enq .mse 0x7FF).wf = true := rfl
theorem witness_EncodingIsUnique : decode (.enqPort .kbd) [0xFF, 0x07] = .ok (.enq .kbd 0x7FF) := rfl
/-- At the least byte each clause refuses, and a length next to the format's. -/
theorem witness_IllegalEncodingsAreRejected : 4 ≤ (4 : Byte).toNat ∧ 8 ≤ (8 : Byte).toNat ∧
    ([] : List Byte).length ≠ 1 ∧ ([0, 0] : List Byte).length ≠ 1 ∧ ([0] : List Byte).length ≠ 2 := by decide
theorem witness_TableWordsDecode : bitAt (0x3FE : FramedWord) 10 = 0 ∧ bitAt (0x7FF : FramedWord) 0 = 1 ∧
    bitAt (0x400 : FramedWord) 10 = 1 ∧ bitAt (0x400 : FramedWord) 0 = 0 := by decide
theorem witness_PlacedWordRunsFirst : decodeTableWord 8 2 = some (.clkl .kbd) ∧
    decodeTableWord 16 0x7FF = some (.enq .kbd 0x7FF) := by decide
theorem witness_EveryStepKeepsTheInvariant : (turn (.tick .kbd) (mk fullQueue)).Inv ∧
    ∃ t, step (turn (.tick .kbd) (mk fullQueue)) = .next t := by
  exact ⟨(mk_inv rfl rfl fullQueue_inv).with_schedule _, _, rfl⟩
theorem witness_ResetMeetsTheInvariant : cfg.wf = true := by decide
theorem witness_NothingIsTakenBack : ∃ t, step (turn (.tick .kbd) (mk fullQueue)) = .next t ∧ fullQueue.en = true ∧
    (mk fullQueue).ctl = 1 := ⟨_, rfl, rfl, rfl⟩

end Sys2Proof.Tests
end

section
/-! PROOFS. Durations and rates (00_scope.md R4, R5; 70_reset_and_hazards.md R167, R169). -/

namespace Sys2Proof

/-- R4. -/
theorem Params.div_pos_of_wf {p : Params} (hp : p.wf = true) : 0 < p.div := by
  obtain ⟨_, hdiv⟩ : 1 ≤ p.qDepth ∧ 1 ≤ p.div := by simpa [Params.wf] using hp
  exact hdiv

end Sys2Proof

namespace Sys2Proof.Machine

/-! ### Ticks of a micro-step, a bit slot and a word -/

@[simp] theorem stepTicks_clkh : stepTicks 0 = 1 := rfl
@[simp] theorem stepTicks_shift : stepTicks 1 = 1 := rfl
/-- CLKL alone has a delay tick (R65). -/
@[simp] theorem stepTicks_clkl : stepTicks 2 = 2 := rfl

@[simp] theorem slotTicks_eq : slotTicks = 4 := by simp [slotTicks]

@[simp] theorem wordTicks_eq : wordTicks = 44 := by simp [wordTicks, Config.thresh]

/-! ### Rates -/

section
variable {n : Nat} {fSys f : ℝ} {p : Params}

/-- The product that fixes a rate fixes it as a quotient, since what is timed takes at least one tick of a divider that
divides by at least one. -/
theorem isRate_iff_eq_div (hn : 0 < n) (hdiv : 0 < p.div) :
    IsRate n fSys p f ↔ f = fSys / ((n : ℝ) * (p.div : ℝ)) := by
  have hperiod : (n : ℝ) * (p.div : ℝ) ≠ 0 := by positivity
  rw [eq_div_iff hperiod, IsRate, Nat.cast_mul]

theorem IsRate.pos (h : IsRate n fSys p f) (hSys : fSysWf fSys) : 0 < f :=
  have hprod : 0 < f * ((n * p.div : Nat) : ℝ) := hSys.trans_eq h.symm
  pos_of_mul_pos_left hprod (Nat.cast_nonneg _)

/-- What takes `k` times as many ticks has a `k`-th of the rate. -/
theorem IsRate.div_nat {k : Nat} (h : IsRate n fSys p f) (hk : k ≠ 0) : IsRate (k * n) fSys p (f / k) := by
  have hk' : (k : ℝ) ≠ 0 := Nat.cast_ne_zero.mpr hk
  calc f / k * ((k * n * p.div : Nat) : ℝ)
      = f / k * k * ((n * p.div : Nat) : ℝ) := by push_cast; ring
    _ = f * ((n * p.div : Nat) : ℝ) := by rw [div_mul_cancel₀ f hk']
    _ = fSys := h

/-- R5, R102. -/
theorem isBitRate_iff_eq_div (hdiv : 0 < p.div) : IsBitRate fSys p f ↔ f = fSys / (4 * (p.div : ℝ)) := by
  rw [IsBitRate, slotTicks_eq]
  exact isRate_iff_eq_div (by decide) hdiv

/-- R169: a word is `THRESH = 11` slots. -/
theorem IsBitRate.wordRate (h : IsBitRate fSys p f) : IsWordRate fSys p (f / 11) :=
  IsRate.div_nat (k := Config.thresh) h (by decide)

/-- The spec's example in R5: 125 MHz divided by 2500 clocks 12.5 kHz. -/
theorem isBitRate_of_div_2500 (hdiv : p.div = 2500) : IsBitRate 125000000 p 12500 := by
  rw [isBitRate_iff_eq_div (by omega), hdiv]
  norm_num

end

/-- Settles O51: the durations are read off the micro-program, the bit rate is the general quotient at 4 ticks, and the
word rate its eleventh since a word is eleven slots. -/
theorem bitRate : Obligations.BitRate := by
  refine ⟨slotTicks_eq, wordTicks_eq, fun fSys f p hp => ⟨?_, fun hSys h => ?_, fun h => ?_⟩, fun p hdiv => ⟨?_, ?_⟩⟩
  · exact isBitRate_iff_eq_div (Params.div_pos_of_wf hp)
  · exact IsRate.pos h hSys
  · exact h.wordRate
  · exact isBitRate_of_div_2500 hdiv
  · exact ⟨12500, isBitRate_of_div_2500 hdiv, by norm_num, by norm_num⟩

end Sys2Proof.Machine
end

section
/-! PROOFS. What every step keeps (10_state.md R28, R29, R32; 00_scope.md R6; 70_reset_and_hazards.md R159): nothing is
taken back, and the invariant of the machine. -/

namespace Sys2Proof.Machine

variable {s t : State} {c : Channel} {turn : Turn} {p : Params} {e e' : Engine}

/-! ### What no turn takes back -/

/-- R4, R6. -/
theorem TurnMove.cfg (h : TurnMove turn s t) : t.cfg = s.cfg := by
  cases h <;> simp

/-- The control line is written by CTLHIGH alone (R27). -/
theorem TurnMove.ctl (h : TurnMove turn s t) : t.ctl = s.ctl ∨ t.ctl = 1#1 := by
  cases h with
  | raise => exact .inr rfl
  | _ => exact .inl (by simp)

/-- R28. -/
theorem TurnMove.halted (h : TurnMove turn s t) (hh : s.halted = true) : t.halted = true := by
  cases h <;> simp [hh]

/-- The log is appended to by FRAME alone (R29, R86). -/
theorem TurnMove.diag (h : TurnMove turn s t) : ∃ more, t.diag = s.diag ++ more := by
  cases h with
  | framed => exact ⟨_, rfl⟩
  | _ => exact ⟨[], by simp⟩

/-- Settles O60: a step is one turn's move, and each clause is read off the moves. -/
theorem nothingIsTakenBack : Obligations.NothingIsTakenBack := by
  intro s t h
  obtain ⟨turns, n, -, hm⟩ := step_move h
  have hctl : s.ctl = 1#1 → t.ctl = 1#1 := fun h₁ => hm.ctl.elim (fun heq => by simpa [heq] using h₁) id
  exact ⟨fun c he => (hm.channel c).en (by simpa using he), hctl, hm.halted, hm.cfg, hm.diag⟩

/-! ### The invariant, taken apart by channel -/

/-- What `State.Inv` says of channel `c` alone. -/
structure Engine.ChannelInv (p : Params) (c : Channel) (e : Engine) : Prop where
  started_ok : e.en = true → e.Inv p
  unstarted_ok : e.en = false → e.Untouched p c
  dat_until_begun : e.begun = false → e.dat = p.datReset.get c
  failed_startup : p.startupOk = false → e.en = false

/-- What `State.Inv` says of what the channels share. -/
structure State.SharedInv (s : State) : Prop where
  params_wf : s.cfg.wf = true
  ctl_done : s.ctlDone = true → s.ctl = 1#1
  ctl_not_done : s.ctlDone = false → s.ctl = s.cfg.ctlReset
  failed_startup : s.cfg.startupOk = false → s.ctlDone = false
  halted_failed : s.halted = true → s.cfg.startupOk = false

theorem State.inv_iff : s.Inv ↔ s.SharedInv ∧ ∀ c, (s.eng c).ChannelInv s.cfg c := by
  constructor
  · rintro ⟨hwf, hstarted, hunstarted, hdat, hdone, hnot, hfailed, hhalt⟩
    refine ⟨⟨hwf, hdone, hnot, fun ho => ?_, hhalt⟩, fun c => ⟨hstarted c, hunstarted c, hdat c, fun ho => ?_⟩⟩ <;>
      obtain ⟨hkbd, hmse, hctl⟩ := hfailed ho
    · exact hctl
    · cases c
      exacts [hkbd, hmse]
  · rintro ⟨⟨hwf, hdone, hnot, hfailed, hhalt⟩, hc⟩
    exact ⟨hwf, fun c => (hc c).started_ok, fun c => (hc c).unstarted_ok, fun c => (hc c).dat_until_begun, hdone, hnot,
      fun ho => ⟨(hc .kbd).failed_startup ho, (hc .mse).failed_startup ho, hfailed ho⟩, hhalt⟩

/-- The invariant speaks neither of the schedule nor of its counter. -/
theorem State.Inv.takeOff (h : s.Inv) (turns : List Turn) (n : Nat) : (s.takeOff turns n).Inv := by
  obtain ⟨⟨hwf, hdone, hnot, hfailed, hhalt⟩, hc⟩ := State.inv_iff.1 h
  exact State.inv_iff.2 ⟨⟨hwf, hdone, hnot, hfailed, hhalt⟩, by simpa using hc⟩

/-! ### One tick -/

/-- Shifting a word right by one place leaves it below half its bound (10_state.md R32 item 5). -/
theorem osr_ushiftRight_lt {w : FramedWord} {n : Nat} (h : w.toNat < 2 ^ (n + 1)) : (w >>> 1).toNat < 2 ^ n := by
  rw [BitVec.toNat_ushiftRight, Nat.shiftRight_eq_div_pow]
  omega

/-- A channel with a bit of its word still to send has begun a word, and no early entry waits. -/
theorem Engine.Inv.of_cnt_lt (h : e.Inv p) (hc : e.cnt.val < 11) : e.begun = true ∧ e.early = none := by
  constructor
  · by_contra hb
    have := (h.fresh_until_begun (by simpa using hb)).1
    simp [Config.thresh] at this
    omega
  · by_contra he
    have := h.early_when_exhausted he
    simp [Config.thresh] at this
    omega

/-- A shift keeps the invariant: the bit it sends leaves the register, and the clock stays high. -/
theorem Engine.Inv.shift (h : e.Inv p) (hd : e.dly = 0) (hu : e.upc = 1) (hc : e.cnt.val < 11) :
    (shiftOut e).Inv p := by
  obtain ⟨hb, he⟩ := h.of_cnt_lt hc
  have hcnt : (e.cnt + 1).val = e.cnt.val + 1 := cnt_succ hc
  have hosr : e.osr.toNat < 2 ^ (11 - (e.cnt.val + 1) + 1) := by
    have := h.osr_shifted hb
    rwa [show 11 - (e.cnt.val + 1) + 1 = Config.thresh - e.cnt.val by simp only [Config.thresh]; omega]
  exact {
    queue_bounded := h.queue_bounded
    cnt_pos := by simp [hcnt]
    delay_before_clkh := fun h₀ => absurd hd h₀
    high_before_shift := fun _ => h.high_before_shift (by simp [hu])
    low_before_clkh := fun h₀ => by simp at h₀
    osr_shifted := fun _ => by simpa [hcnt, Config.thresh] using osr_ushiftRight_lt hosr
    fresh_until_begun := fun h₀ => by simp [hb] at h₀
    early_when_exhausted := fun h₀ => absurd he h₀
    phase_bounded := h.phase_bounded }

/-- A refill loads the taken word whole and sends its bit 0. -/
theorem Engine.Inv.refill {w : FramedWord} (h : e.Inv p) (hd : e.dly = 0) (hu : e.upc = 1)
    (ht : takeWord e = some (w, e')) : (shiftOut (loadWord w e')).Inv p := by
  obtain ⟨-, -, hdly, -, -, hclk, -, hphase, -, hearly⟩ := takeWord_frame ht
  have hq : e'.q.length ≤ e.q.length := by
    rcases takeWord_cases ht with ⟨-, rfl⟩ | ⟨-, rest, hq, rfl⟩ <;> simp [*]
  exact {
    queue_bounded := hq.trans h.queue_bounded
    cnt_pos := by simp
    delay_before_clkh := fun h₀ => absurd (hdly.trans hd) h₀
    high_before_shift := fun _ => hclk.trans (h.high_before_shift (by simp [hu]))
    low_before_clkh := fun h₀ => by simp at h₀
    osr_shifted := fun _ => osr_ushiftRight_lt w.isLt
    fresh_until_begun := fun h₀ => by simp at h₀
    early_when_exhausted := fun h₀ => absurd hearly h₀
    phase_bounded := by simpa [hphase] using h.phase_bounded }

/-- A tick keeps the invariant of a started channel. -/
theorem TickMove.inv (hm : TickMove e e') (h : e.Inv p) : e'.Inv p := by
  cases hm with
  | delay hd =>
    exact { h with
      delay_before_clkh := fun _ => h.delay_before_clkh hd
      fresh_until_begun := fun hb =>
        have ⟨_, _, hdly, _⟩ := h.fresh_until_begun hb
        absurd hdly hd }
  | clkh hd hu =>
    exact { h with
      delay_before_clkh := fun h₀ => absurd hd h₀
      high_before_shift := fun _ => rfl
      low_before_clkh := fun h₀ => by simp at h₀
      fresh_until_begun := fun hb =>
        have ⟨hc, _, hrest⟩ := h.fresh_until_begun hb
        ⟨hc, by simp, hrest⟩ }
  | shift hd hu hc => exact h.shift hd hu hc
  | refill w e₁ hd hu hc ht => exact h.refill hd hu ht
  | stall => exact h
  | clkl hd hu =>
    exact { h with
      delay_before_clkh := fun _ => ⟨rfl, rfl⟩
      high_before_shift := fun h₀ => absurd rfl h₀
      low_before_clkh := fun _ _ => rfl
      fresh_until_begun := fun hb =>
        have ⟨_, hupc, _⟩ := h.fresh_until_begun hb
        absurd hu hupc }

/-- The data pin is first driven by the SHIFT that begins a word (R17, R157). -/
theorem TickMove.dat_of_begun_eq_false (hm : TickMove e e') (h : e.Inv p) (hb : e'.begun = false) :
    e.begun = false ∧ e'.dat = e.dat := by
  cases hm with
  | shift hd hu hc => exact absurd hb (by simp [(h.of_cnt_lt hc).1])
  | refill w e₁ hd hu hc ht => exact absurd hb (by simp)
  | _ => exact ⟨hb, rfl⟩

/-! ### The other moves of a channel -/

/-- START leaves a channel that meets the invariant, whatever it held before (R153). -/
theorem Engine.inv_started (e : Engine) (hdiv : 0 < p.div) : (started e).Inv p where
  queue_bounded := by simp
  cnt_pos := by simp
  delay_before_clkh h₀ := by simp at h₀
  high_before_shift h₀ := by simp at h₀
  low_before_clkh _ h₀ := by simp at h₀
  osr_shifted h₀ := by simp at h₀
  fresh_until_begun _ := by simp [Config.thresh]
  early_when_exhausted h₀ := by simp at h₀
  phase_bounded := hdiv

/-- The divider may stand at any phase it has not wrapped at (R140). -/
theorem Engine.Inv.with_phase (h : e.Inv p) {n : Nat} (hn : n < p.div) : { e with phase := n }.Inv p :=
  { h with phase_bounded := hn }

/-- An ENQ with room (R43). -/
theorem Engine.Inv.push (h : e.Inv p) (w : FramedWord) (hl : e.q.length < p.qDepth) :
    { e with q := e.q ++ [w] }.Inv p :=
  { h with queue_bounded := by simpa using hl }

/-- An early pop in its window (R105). -/
theorem Engine.Inv.earlyPop {w : FramedWord} {rest : List FramedWord} (h : e.Inv p) (hw : popWindow e = true)
    (hq : e.q = w :: rest) : { e with q := rest, early := some w }.Inv p := by
  obtain ⟨hb, hc, -⟩ := popWindow_iff.1 hw
  exact { h with
    queue_bounded := by
      have := h.queue_bounded
      simp [hq] at this
      show rest.length ≤ p.qDepth
      omega
    fresh_until_begun := fun h₀ => by simp [hb] at h₀
    early_when_exhausted := fun _ => hc }

/-! ### Every step -/

/-- A started channel meets its clauses when it meets the invariant, its startup has not failed and its data pin has not
moved early. -/
theorem Engine.channelInv_of_started (hen : e.en = true) (ho : p.startupOk = true) (h : e.Inv p)
    (hdat : e.begun = false → e.dat = p.datReset.get c) : e.ChannelInv p c where
  started_ok _ := h
  unstarted_ok h₀ := by simp [hen] at h₀
  dat_until_begun := hdat
  failed_startup h₀ := by simp [ho] at h₀

/-- Every move of a channel keeps what the invariant says of it. -/
theorem ChannelMove.channelInv (hm : ChannelMove turn s c e) (hdiv : 0 < s.cfg.div)
    (h : (s.eng c).ChannelInv s.cfg c) : e.ChannelInv s.cfg c := by
  have hawake (ha : asleep c s = false) :
      (s.eng c).en = true ∧ s.cfg.startupOk = true ∧ (s.eng c).Inv s.cfg := by
    have hen := (asleep_eq_false_iff.1 ha).2
    refine ⟨hen, ?_, h.started_ok hen⟩
    by_contra ho
    simp [h.failed_startup (by simpa using ho)] at hen
  cases hm with
  | same => exact h
  | start hh ho he =>
    exact Engine.channelInv_of_started rfl ho (Engine.inv_started _ hdiv) fun _ => (h.unstarted_ok he).dat_reset
  | tick n e hn ha hm =>
    obtain ⟨hen, ho, hi⟩ := hawake ha
    have hn' : n < s.cfg.div := by
      rcases hn with rfl | rfl
      exacts [hi.phase_bounded, hdiv]
    have hi' := hi.with_phase hn'
    refine Engine.channelInv_of_started (hm.en.trans hen) ho (hm.inv hi') fun hb => ?_
    obtain ⟨hb', hdat⟩ := hm.dat_of_begun_eq_false hi' hb
    exact hdat.trans (h.dat_until_begun hb')
  | count ha hp =>
    obtain ⟨hen, ho, hi⟩ := hawake ha
    exact Engine.channelInv_of_started hen ho (hi.with_phase hp) h.dat_until_begun
  | early w rest ha hc hn hq =>
    obtain ⟨hen, ho, hi⟩ := hawake ha
    exact Engine.channelInv_of_started hen ho (hi.earlyPop hc hq) h.dat_until_begun
  | enqueued w more ht hs ha hl =>
    obtain ⟨hen, ho, hi⟩ := hawake ha
    exact Engine.channelInv_of_started hen ho (hi.push w hl) h.dat_until_begun

/-- Every turn keeps what the invariant says of what the channels share: only CTLHIGH and the halt write any of it. -/
theorem TurnMove.sharedInv (hm : TurnMove turn s t) (h : s.SharedInv) : t.SharedInv := by
  cases hm with
  | raise ht hh ho hd => exact ⟨h.params_wf, fun _ => rfl, nofun, fun h₀ => by simp [ho] at h₀, h.halted_failed⟩
  | halt hh ho => exact ⟨h.params_wf, h.ctl_done, h.ctl_not_done, h.failed_startup, fun _ => ho⟩
  | _ => exact ⟨by simpa using h.params_wf, by simpa using h.ctl_done, by simpa using h.ctl_not_done,
      by simpa using h.failed_startup, by simpa using h.halted_failed⟩

theorem TurnMove.inv (hm : TurnMove turn s t) (h : s.Inv) : t.Inv := by
  obtain ⟨hshared, hc⟩ := State.inv_iff.1 h
  refine State.inv_iff.2 ⟨hm.sharedInv hshared, fun c => ?_⟩
  rw [hm.cfg]
  exact (hm.channel c).channelInv (Params.div_pos_of_wf hshared.params_wf) (hc c)

/-- Settles O58: a step is one turn's move, and each move keeps the clauses of each channel and the shared ones. -/
theorem everyStepKeepsTheInvariant : Obligations.EveryStepKeepsTheInvariant := by
  intro s t hs h
  obtain ⟨turns, n, -, hm⟩ := step_move h
  exact hm.inv (hs.takeOff turns n)

end Sys2Proof.Machine
end

section
/-! PROOFS. The diagnostic log is write-only (10_state.md R29, 40_frame_encoder.md R86). -/

namespace Sys2Proof.Machine

/-- The state with another diagnostic log. -/
def State.withLog (s : State) (log : List DiagRec) : State := { s with diag := log }

section
variable (s : State) (log : List DiagRec) (c : Channel)

@[simp] theorem withLog_eng : (s.withLog log).eng c = s.eng c := by cases c <;> rfl
@[simp] theorem withLog_halted : (s.withLog log).halted = s.halted := rfl
@[simp] theorem withLog_cfg : (s.withLog log).cfg = s.cfg := rfl
@[simp] theorem withLog_ctlDone : (s.withLog log).ctlDone = s.ctlDone := rfl
@[simp] theorem withLog_script : (s.withLog log).script = s.script := rfl
@[simp] theorem withLog_setEng (e : Engine) : (s.withLog log).setEng c e = (s.setEng c e).withLog log := by
  cases c <;> rfl
@[simp] theorem withLog_halt : (s.withLog log).halt = s.halt.withLog log := rfl
@[simp] theorem withLog_raiseCtl : (s.withLog log).raiseCtl = s.raiseCtl.withLog log := rfl
@[simp] theorem withLog_retire : (s.withLog log).retire = s.retire.withLog log := rfl
@[simp] theorem withLog_asleep : asleep c (s.withLog log) = asleep c s := by simp [asleep]
@[simp] theorem withLog_startupDone : startupDone (s.withLog log) = startupDone s := rfl
@[simp] theorem withLog_producing : producing (s.withLog log) = producing s := rfl
@[simp] theorem withLog_held (r : Request) : held r (s.withLog log) = held r s := by cases r <;> simp [held]
@[simp] theorem withLog_awaitsStartup (r : Request) : awaitsStartup r (s.withLog log) = awaitsStartup r s := by
  cases r <;> simp [awaitsStartup]

/-- The next turn is chosen without a look at the log. -/
theorem nextTurn_withLog : nextTurn (s.withLog log) = ((nextTurn s).1, (nextTurn s).2.withLog log) := by
  cases hs : s.schedule <;> simp [nextTurn, State.withLog, hs, State.takeOff]

/-- The startup agent neither reads nor writes the log. -/
theorem startupTurn_withLog (ev : StartupEvent) :
    startupTurn ev (s.withLog log) = (startupTurn ev s).withLog log := by
  rcases startupTurn_cases ev s with ⟨hh, h⟩ | ⟨hh, ho, h⟩ | ⟨hh, ho, rfl, hd, h⟩ | ⟨hh, ho, rfl, hd, h⟩ |
    ⟨c, hh, ho, rfl, he, h⟩ | ⟨c, hh, ho, rfl, he, h⟩ <;> rw [h]
  · simp [startupTurn, hh]
  · simp [startupTurn, hh, ho]
  · simp [startupTurn, ctlHigh, hh, ho, hd]
  · simp [startupTurn, ctlHigh, hh, ho, hd]
  · simp [startupTurn, startChannel, hh, ho, he]
  · simp [startupTurn, startChannel, hh, ho, he]

/-- An early pop neither reads nor writes the log. -/
theorem earlyPop_withLog : earlyPop c (s.withLog log) = (earlyPop c s).withLog log := by
  simp only [earlyPop, withLog_asleep, withLog_eng, withLog_setEng]
  split_ifs
  · rfl
  · split <;> rfl

end

/-- `f` does not depend on the log: with another one it gives the same state but for the log. -/
def LogBlind (f : State → Host.Outcome State Fault Refusal) : Prop :=
  ∀ s t log, f s = .next t → ∃ log', f (s.withLog log) = .next (t.withLog log')

theorem logBlind_execClkh (c : Channel) : LogBlind (execClkh c) := by
  rintro s _ log ⟨⟩
  exact ⟨log, by simp [execClkh]⟩

theorem logBlind_execClkl (c : Channel) : LogBlind (execClkl c) := by
  rintro s _ log ⟨⟩
  exact ⟨log, by simp [execClkl]⟩

theorem logBlind_execShift (c : Channel) : LogBlind (execShift c) := by
  intro s t log h
  refine ⟨log, ?_⟩
  simp only [execShift, withLog_eng, withLog_setEng] at h ⊢
  split at h
  next hx =>
    rw [if_pos hx]
    split at h <;> cases h <;> rfl
  next hx =>
    rw [if_neg hx]
    cases h
    rfl

/-- FRAME writes the log and does not read it. -/
theorem logBlind_execFrame (code : RawCode) : LogBlind (execFrame code) := by
  rintro s _ log ⟨⟩
  exact ⟨log ++ [.info code, .debug (frame code)], rfl⟩

theorem logBlind_execEnq (c : Channel) (w : FramedWord) : LogBlind (execEnq c w) := by
  intro s t log h
  refine ⟨log, ?_⟩
  obtain ⟨hh, he, hq⟩ := execEnq_cases h
  rcases hq with ⟨hl, rfl⟩ | ⟨hl, rfl⟩
  · simp [execEnq, qPush, hh, he, hl]
  · simp [execEnq, qPush, hh, he, Nat.not_lt.2 hl]

theorem logBlind_exec (i : Instr) : LogBlind (exec i) := by
  cases i with
  | clkh c => exact logBlind_execClkh c
  | shift c => exact logBlind_execShift c
  | clkl c => exact logBlind_execClkl c
  | frame code => exact logBlind_execFrame code
  | enq c w => exact logBlind_execEnq c w

theorem logBlind_runFetched (src : Source) (bytes : List Byte) : LogBlind (runFetched src bytes) := by
  intro s t log h
  unfold runFetched at h ⊢
  split at h
  next i _ => exact logBlind_exec i s t log h
  next => cases h

theorem logBlind_tick (c : Channel) : LogBlind (tick c) := by
  intro s t log h
  simp only [tick, withLog_asleep, withLog_eng, withLog_setEng] at h ⊢
  split_ifs at h ⊢
  · cases h; exact ⟨log, rfl⟩
  · cases h; exact ⟨log, rfl⟩
  · exact logBlind_runFetched _ _ s t log h

theorem logBlind_sysClk (c : Channel) : LogBlind (sysClk c) := by
  intro s t log h
  simp only [sysClk, withLog_asleep, withLog_eng, withLog_cfg, withLog_setEng] at h ⊢
  split_ifs at h ⊢
  · cases h; exact ⟨log, rfl⟩
  · cases h; exact ⟨log, rfl⟩
  · exact logBlind_tick c _ t log h

theorem logBlind_produce : LogBlind produce := by
  intro s t log h
  simp only [produce, withLog_script, withLog_awaitsStartup, withLog_held] at h ⊢
  split at h
  next => cases h; exact ⟨log, rfl⟩
  next r rest _ =>
    by_cases ha : awaitsStartup r s = true
    · rw [if_pos ha] at h
      cases h
      exact ⟨log, if_pos ha⟩
    · rw [if_neg ha] at h ⊢
      split at h
      next u hu =>
        obtain ⟨log', hlog'⟩ := logBlind_runFetched _ _ s u log hu
        cases h
        refine ⟨log', ?_⟩
        simp only [hlog', withLog_retire]
        split <;> rfl
      all_goals cases h

theorem logBlind_takeTurn (turn : Turn) : LogBlind (takeTurn turn) := by
  cases turn with
  | startup ev =>
    rintro s _ log ⟨⟩
    exact ⟨log, congrArg _ (startupTurn_withLog s log ev)⟩
  | tick c => exact logBlind_tick c
  | sysClk c => exact logBlind_sysClk c
  | earlyPop c =>
    rintro s _ log ⟨⟩
    exact ⟨log, congrArg _ (earlyPop_withLog s log c)⟩
  | produce => exact logBlind_produce

theorem logBlind_step : LogBlind step := by
  intro s t log h
  simp only [step, nextTurn_withLog]
  exact logBlind_takeTurn _ _ t log h

/-- Settles O37: the choice of the turn and every agent's turn are blind to the log. -/
theorem diagnosticsNeverMatter : Obligations.DiagnosticsNeverMatter := logBlind_step

end Sys2Proof.Machine
end

section
/-! PROOFS. What each tick of an awake engine answers, and a word sent bit by bit (41_serial_clock_engine.md R91 to R97,
43_wire_protocol.md R123). -/

namespace Sys2Proof.Machine

variable {c : Channel} {s t : State} {e e' : Engine} {w : FramedWord} {rest : List FramedWord} {k : Nat}

/-! ### One tick, by the micro-step at its index

Said of a state that holds the engine `e` in channel `c`, so that the answers of a run of ticks compose. -/

theorem asleep_setEng (hh : s.halted = false) (hen : e.en = true) : asleep c (s.setEng c e) = false :=
  asleep_eq_false_iff.2 ⟨by simpa using hh, by simpa using hen⟩

/-- R97. -/
theorem tick_delay (hh : s.halted = false) (hen : e.en = true) (hd : e.dly ≠ 0) :
    tick c (s.setEng c e) = .next (s.setEng c (delayTick e)) := by
  simp [tick, asleep_setEng hh hen, hd]

/-- An awake engine without a delay pending runs the micro-step at its index (R91). -/
theorem tick_selector (hh : s.halted = false) (hen : e.en = true) (hd : e.dly = 0) :
    tick c (s.setEng c e) =
      if e.upc = 0 then execClkh c (s.setEng c e)
      else if e.upc = 1 then execShift c (s.setEng c e) else execClkl c (s.setEng c e) := by
  simp [tick, asleep_setEng hh hen, hd, runFetched_selector]

/-- R92. -/
theorem tick_clkh (hh : s.halted = false) (hen : e.en = true) (hd : e.dly = 0) (hu : e.upc = 0) :
    tick c (s.setEng c e) = .next (s.setEng c { e with clk := 1#1, upc := 1 }) := by
  simp [tick_selector hh hen hd, hu, execClkh]

/-- R93. -/
theorem tick_shift (hh : s.halted = false) (hen : e.en = true) (hd : e.dly = 0) (hu : e.upc = 1)
    (hc : e.cnt.val < 11) : tick c (s.setEng c e) = .next (s.setEng c (shiftOut e)) := by
  simp [tick_selector hh hen hd, hu, execShift, not_exhausted_iff.2 hc]

/-- R94. -/
theorem tick_refill (hh : s.halted = false) (hen : e.en = true) (hd : e.dly = 0) (hu : e.upc = 1)
    (hc : e.cnt.val = 11) (ht : takeWord e = some (w, e')) :
    tick c (s.setEng c e) = .next (s.setEng c (shiftOut (loadWord w e'))) := by
  simp [tick_selector hh hen hd, hu, execShift, exhausted_iff.2 hc, ht]

/-- R96. -/
theorem tick_clkl (hh : s.halted = false) (hen : e.en = true) (hd : e.dly = 0) (hu : e.upc = 2) :
    tick c (s.setEng c e) = .next (s.setEng c { e with clk := 0#1, dly := 1, upc := 0 }) := by
  simp [tick_selector hh hen hd, hu, execClkl, Config.dlyClkl]

/-! ### Runs of ticks -/

theorem ticks_succ {n : Nat} (h : tick c s = .next t) : ticks c (n + 1) s = ticks c n t := by
  simp [ticks, h]

theorem ticks_add {m : Nat} (n : Nat) (h : ticks c m s = .next t) : ticks c (m + n) s = ticks c n t := by
  induction m generalizing s with
  | zero => cases h; simp
  | succ m ih =>
    rw [Nat.add_right_comm]
    simp only [ticks] at h ⊢
    split at h
    next u hu => exact ih h
    all_goals cases h

/-- From one SHIFT to the next inside a word: CLKL, its delay tick, CLKH, SHIFT (R5, R98). -/
theorem ticks_shift_to_shift (hh : s.halted = false) (hen : e.en = true) (hd : e.dly = 0) (hu : e.upc = 2)
    (hc : e.cnt.val < 11) :
    ticks c 4 (s.setEng c e) = .next (s.setEng c (shiftOut { e with clk := 1#1, upc := 1 })) := by
  have hclkl : tick c (s.setEng c e) = .next (s.setEng c { e with clk := 0#1, dly := 1, upc := 0 }) :=
    tick_clkl hh hen hd hu
  have hdelay : tick c (s.setEng c { e with clk := 0#1, dly := 1, upc := 0 }) =
      .next (s.setEng c { e with clk := 0#1, dly := 0, upc := 0 }) := tick_delay hh hen Fin.zero_ne_one.symm
  have hclkh : tick c (s.setEng c { e with clk := 0#1, dly := 0, upc := 0 }) =
      .next (s.setEng c { e with clk := 1#1, dly := 0, upc := 1 }) := tick_clkh hh hen rfl rfl
  have hshift : tick c (s.setEng c { e with clk := 1#1, dly := 0, upc := 1 }) =
      .next (s.setEng c (shiftOut { e with clk := 1#1, dly := 0, upc := 1 })) := tick_shift hh hen rfl rfl hc
  rw [ticks_succ hclkl, ticks_succ hdelay, ticks_succ hclkh, ticks_succ hshift, ← hd]
  rfl

/-! ### A word sent bit by bit -/

/-- The channel right after the `k`-th SHIFT of the word `w`, taken from the queue head with `rest` behind it. -/
def afterShift (w : FramedWord) (rest : List FramedWord) (k : Nat) (e : Engine) : Engine :=
  { e with upc := 2, osr := w >>> k, cnt := Fin.ofNat 12 k, dat := bitAt w (k - 1), q := rest, begun := true }

theorem afterShift_cnt_val (hk : k ≤ 11) : (afterShift w rest k e).cnt.val = k :=
  Nat.mod_eq_of_lt (by omega)

/-- The first SHIFT refills and sends bit 0 (R94). -/
theorem shiftOut_loadWord (w : FramedWord) (rest : List FramedWord) (e : Engine) :
    shiftOut (loadWord w { e with q := rest }) = afterShift w rest 1 e := rfl

/-- The next SHIFT sends the next bit of `w`, which is bit 0 of what is left of it (R93). -/
theorem shiftOut_afterShift (w : FramedWord) (rest : List FramedWord) (k : Nat) (hclk : e.clk = 1#1) :
    shiftOut { afterShift w rest k e with clk := 1#1, upc := 1 } = afterShift w rest (k + 1) e := by
  have hosr : w >>> k >>> 1 = w >>> (k + 1) := (BitVec.shiftRight_add w k 1).symm
  have hbit : bitAt (w >>> k) 0 = bitAt w k := by simp [bitAt]
  have hcnt : Fin.ofNat 12 k + 1 = Fin.ofNat 12 (k + 1) := Fin.ext (by simp [Fin.val_add])
  unfold shiftOut afterShift
  simp only [hosr, hbit, hcnt, hclk, Nat.add_sub_cancel]

/-- The `k + 1`-st SHIFT of the word at the head ends tick `4 * k + 1`. -/
theorem ticks_shifts_of_word (hh : s.halted = false) (hen : e.en = true) (hu : e.upc = 1) (hd : e.dly = 0)
    (hclk : e.clk = 1#1) (hc : e.cnt.val = 11) (he : e.early = none) (hq : e.q = w :: rest) (hk : k + 1 ≤ 11) :
    ticks c (4 * k + 1) (s.setEng c e) = .next (s.setEng c (afterShift w rest (k + 1) e)) := by
  induction k with
  | zero =>
    have ht : takeWord e = some (w, { e with q := rest }) := by simp [takeWord, qPop, he, hq]
    rw [ticks_succ (tick_refill hh hen hd hu hc ht), shiftOut_loadWord]
    rfl
  | succ k ih =>
    have hcnt : (afterShift w rest (k + 1) e).cnt.val < 11 := by
      rw [afterShift_cnt_val (by omega)]
      omega
    calc ticks c (4 * (k + 1) + 1) (s.setEng c e)
        = ticks c 4 (s.setEng c (afterShift w rest (k + 1) e)) := ticks_add 4 (ih (by omega))
      _ = .next (s.setEng c (afterShift w rest (k + 1 + 1) e)) := by
        rw [ticks_shift_to_shift (e := afterShift w rest (k + 1) e) hh hen hd rfl hcnt,
          shiftOut_afterShift _ _ _ hclk]

/-- Settles O47: the whole state after the `k`-th SHIFT is known, by induction on `k`. -/
theorem kthShiftSendsBitK : Obligations.KthShiftSendsBitK := by
  intro c s w rest k hh hen hu hd hclk hc he hq hk₁ hk₁₁
  obtain ⟨j, rfl⟩ : ∃ j, k = j + 1 := ⟨k - 1, by omega⟩
  have ht := ticks_shifts_of_word (c := c) hh hen hu hd hclk hc he hq hk₁₁
  rw [setEng_eng] at ht
  refine ⟨_, ht, ?_⟩
  rw [eng_setEng_self]
  exact ⟨rfl, afterShift_cnt_val hk₁₁, rfl, hclk, rfl, rfl⟩

end Sys2Proof.Machine
end

section
/-! PROOFS. The queues (20_memory.md R43, R44, R50, R52, R56): what makes one longer or shorter, and the bits a channel
has accepted and not yet sent. -/

namespace Sys2Proof.Machine

variable {s t : State} {c : Channel} {turn : Turn} {e e' : Engine} {w : FramedWord} {rest : List FramedWord}

/-! ### The two primitives -/

theorem qPush_of_lt {depth : Nat} (hl : e.q.length < depth) : qPush depth e w = some { e with q := e.q ++ [w] } :=
  if_pos hl

theorem qPush_of_le {depth : Nat} (hl : depth ≤ e.q.length) : qPush depth e w = none :=
  if_neg (Nat.not_lt.2 hl)

theorem qPop_of_cons (hq : e.q = w :: rest) : qPop e = some (w, { e with q := rest }) := by
  simp [qPop, hq]

theorem qPop_of_nil (hq : e.q = []) : qPop e = none := by
  simp [qPop, hq]

/-- With no early entry waiting a refill is a pop (R94). -/
theorem takeWord_of_cons (hn : e.early = none) (hq : e.q = w :: rest) :
    takeWord e = some (w, { e with q := rest }) := by
  simp [takeWord, hn, qPop_of_cons hq]

/-- R111, said of a state that holds the engine `e` in channel `c`, as the laws of the tick are. -/
theorem execEnq_push (hh : s.halted = false) (hen : e.en = true) (hl : e.q.length < s.cfg.qDepth) :
    execEnq c w (s.setEng c e) = .next (s.setEng c { e with q := e.q ++ [w] }) := by
  simp [execEnq, hh, hen, qPush_of_lt hl]

/-- R112. -/
theorem execEnq_hold (hh : s.halted = false) (hen : (s.eng c).en = true) (hl : s.cfg.qDepth ≤ (s.eng c).q.length) :
    execEnq c w s = .next s := by
  simp [execEnq, hh, hen, qPush_of_le hl]

/-! ### What makes a queue longer or shorter -/

/-- A tick leaves the queue, or its SHIFT refills from the head (R94). -/
theorem TickMove.queue (hm : TickMove e e') :
    e'.q = e.q ∨
    ∃ w rest, e.upc = 1 ∧ e.cnt.val = 11 ∧ e.early = none ∧ e.q = w :: rest ∧
      e' = shiftOut (loadWord w { e with q := rest }) := by
  cases hm with
  | refill w e₁ hd hu hc ht =>
    rcases takeWord_cases ht with ⟨-, rfl⟩ | ⟨hn, rest, hq, rfl⟩
    · exact .inl rfl
    · exact .inr ⟨w, rest, hu, hc, hn, hq, rfl⟩
  | _ => exact .inl rfl

/-- A queue grows only in the producer's turn, by the word of its request, below the capacity (R43). -/
theorem ChannelMove.queue_of_grows (hm : ChannelMove turn s c e) (hlt : (s.eng c).q.length < e.q.length) :
    ∃ w more, turn = .produce ∧ s.script = .word c w :: more ∧ (s.eng c).q.length < s.cfg.qDepth ∧
      e.q = (s.eng c).q ++ [w] := by
  cases hm with
  | enqueued w more ht hs ha hl => exact ⟨w, more, ht, hs, hl, rfl⟩
  | tick p e hp ha hm =>
    rcases hm.queue with hq | ⟨w, rest, -, -, -, hq, rfl⟩
    · simp [hq] at hlt
    · have hcons : (s.eng c).q = w :: rest := hq
      simp [hcons] at hlt
  | early w rest ha hc hn hq => simp [hq] at hlt
  | _ => simp at hlt

/-- A write that shortens the queue of channel `c` is a write to channel `c`. -/
theorem eq_of_setEng_shrinks {d : Channel} (hlt : ((s.setEng d e).eng c).q.length < (s.eng c).q.length) : d = c := by
  by_contra hne
  rw [eng_setEng_of_ne _ _ (Ne.symm hne)] at hlt
  exact lt_irrefl _ hlt

/-- The two pops of an awake channel: its queue loses the head to `early` in the window R105 admits (log 8), or to the
output shift register in the SHIFT that needs a word (R44, R94), whose tick may wrap the divider to the phase `p` (R140).
Nothing of the rest of the machine moves. -/
inductive PopMove (s : State) (c : Channel) (w : FramedWord) (rest : List FramedWord) : State → Prop where
  | early (hw : popWindow (s.eng c) = true) :
      PopMove s c w rest (s.setEng c { s.eng c with q := rest, early := some w })
  | refill (p : Nat) (hu : (s.eng c).upc = 1) (hc : (s.eng c).cnt.val = 11) :
      PopMove s c w rest (s.setEng c (shiftOut (loadWord w { s.eng c with q := rest, phase := p })))

/-- The queue of a started channel shrinks only in a pop. -/
theorem TurnMove.pop_of_shrinks (hm : TurnMove turn s t) (hen : (s.eng c).en = true)
    (hlt : (t.eng c).q.length < (s.eng c).q.length) :
    s.halted = false ∧ (s.eng c).early = none ∧ ∃ w rest, (s.eng c).q = w :: rest ∧ PopMove s c w rest t := by
  cases hm with
  | start d ht hh ho he =>
    obtain rfl := eq_of_setEng_shrinks hlt
    simp [hen] at he
  | tick d p e hp ha hm =>
    obtain rfl := eq_of_setEng_shrinks hlt
    rcases hm.queue with hq | ⟨w, rest, hu, hc, hn, hq, rfl⟩
    · simp [hq] at hlt
    · exact ⟨(asleep_eq_false_iff.1 ha).1, hn, w, rest, hq, .refill p hu hc⟩
  | early d w rest ha hw hn hq =>
    obtain rfl := eq_of_setEng_shrinks hlt
    exact ⟨(asleep_eq_false_iff.1 ha).1, hn, w, rest, hq, .early hw⟩
  | count d ha hp =>
    obtain rfl := eq_of_setEng_shrinks hlt
    simp at hlt
  | enqueued d w more ht hs ha hl =>
    obtain rfl : d = c := eq_of_setEng_shrinks (by cases c <;> exact hlt)
    cases d <;> simp at hlt
  | framed code more => cases c <;> simp at hlt
  | _ => simp at hlt

theorem PopMove.q (hm : PopMove s c w rest t) : (t.eng c).q = rest := by
  cases hm <;> simp

theorem PopMove.exhausted (hm : PopMove s c w rest t) : exhausted (s.eng c) = true := by
  cases hm with
  | early hw => exact exhausted_iff.2 (popWindow_iff.1 hw).2.1
  | refill p hu hc => exact exhausted_iff.2 hc

/-- The early pop moves no pin; the refill puts bit 0 of the head on the data pin (R94, R105). -/
theorem PopMove.outcome (hm : PopMove s c w rest t) (hn : (s.eng c).early = none) :
    (popWindow (s.eng c) = true ∧ (t.eng c).early = some w ∧ ∀ p, pin t p = pin s p) ∨
    ((t.eng c).early = none ∧ (s.eng c).upc = 1 ∧ (t.eng c).upc = 2 ∧ (t.eng c).dat = bitAt w 0) := by
  cases hm with
  | early hw =>
    refine .inl ⟨hw, by simp, fun p => ?_⟩
    cases p with
    | ctl => simp [pin]
    | clk d => cases c <;> cases d <;> rfl
    | dat d => cases c <;> cases d <;> rfl
  | refill p hu hc => exact .inr (by simp [hn, hu])

/-- Where the window of the early pop is shut, a pop is the SHIFT that begins the word (R56). -/
theorem PopMove.refills (hm : PopMove s c w rest t) (hb : (s.eng c).begun = false ∨ (s.eng c).upc = 1) :
    (s.eng c).upc = 1 ∧ (t.eng c).upc = 2 ∧ (t.eng c).clk = (s.eng c).clk ∧ (t.eng c).cnt.val = 1 := by
  cases hm with
  | early hw =>
    obtain ⟨hbegun, -, hu⟩ := popWindow_iff.1 hw
    simp [hbegun, hu] at hb
  | refill p hu hc => simp [hu]

/-! ### The same, of a step -/

theorem step_queue_of_grows (h : step s = .next t) (hlt : (s.eng c).q.length < (t.eng c).q.length) :
    ∃ w more, (nextTurn s).1 = .produce ∧ s.script = .word c w :: more ∧ (s.eng c).q.length < s.cfg.qDepth ∧
      (t.eng c).q = (s.eng c).q ++ [w] := by
  obtain ⟨turns, n, hm⟩ := step_channel h c
  simpa using hm.queue_of_grows (by simpa using hlt)

theorem step_pop_of_shrinks (h : step s = .next t) (hen : (s.eng c).en = true)
    (hlt : (t.eng c).q.length < (s.eng c).q.length) :
    s.halted = false ∧ (s.eng c).early = none ∧
      ∃ w rest turns n, (s.eng c).q = w :: rest ∧ PopMove (s.takeOff turns n) c w rest t := by
  obtain ⟨turns, n, -, hm⟩ := step_move h
  obtain ⟨hh, hn, w, rest, hq, hp⟩ := hm.pop_of_shrinks (by simpa using hen) (by simpa using hlt)
  exact ⟨by simpa using hh, by simpa using hn, w, rest, turns, n, by simpa using hq, hp⟩

theorem pin_takeOff (turns : List Turn) (n : Nat) (p : Pin) : pin (s.takeOff turns n) p = pin s p := by
  cases p <;> simp [pin]

/-- Settles O20: the primitive by its two branches, and growth by the moves of a channel. -/
theorem qPushOnlyByEnq : Obligations.QPushOnlyByEnq :=
  ⟨fun _ _ _ => ⟨qPush_of_lt, qPush_of_le⟩, fun _ _ _ hh hen hl => execEnq_hold hh hen hl,
    fun _ _ _ h hlt => step_queue_of_grows h hlt⟩

/-- Settles O21: the primitive by its two branches, and shrinking by the two pops. -/
theorem qPopTakesTheHead : Obligations.QPopTakesTheHead := by
  refine ⟨fun _ _ _ => qPop_of_cons, fun _ => qPop_of_nil, fun s t c hen h hlt => ?_⟩
  obtain ⟨hh, hn, w, rest, turns, n, hq, hp⟩ := step_pop_of_shrinks h hen hlt
  have hx := hp.exhausted
  have ho := hp.outcome (by simpa using hn)
  simp only [takeOff_eng, pin_takeOff] at hx ho
  exact ⟨hh, hx, hn, w, by rw [hp.q, hq], ho⟩

/-- Settles O22: both orders put the new word behind what the pop leaves and load the same head. -/
theorem pushAndPopCommute : Obligations.PushAndPopCommute := by
  intro c w head rest s hh hen hd hu hc hn hq hl
  have hpush := execEnq_push (c := c) (w := w) hh hen hl
  have hpop := tick_refill (c := c) hh hen hd hu hc (takeWord_of_cons hn hq)
  rw [setEng_eng] at hpush hpop
  refine ⟨_, _, s.setEng c (shiftOut (loadWord head { s.eng c with q := rest ++ [w] })),
    hpush, ?_, hpop, ?_, by simp⟩
  · exact tick_refill hh hen hd hu hc (takeWord_of_cons hn (by simp [hq]))
  · exact execEnq_push hh hen (by simp [hq] at hl ⊢; omega)

/-! ### Back-pressure -/

/-- A step moves the queue length of a started channel by what it counts: one up in an ENQ, one down in a pop. -/
theorem step_queue_balance (h : step s = .next t) (hen : (s.eng c).en = true) :
    (s.eng c).q.length + (if (s.eng c).q.length < (t.eng c).q.length then 1 else 0) =
      (t.eng c).q.length + (if (t.eng c).q.length < (s.eng c).q.length then 1 else 0) := by
  rcases lt_trichotomy (s.eng c).q.length (t.eng c).q.length with hlt | heq | hgt
  · obtain ⟨w, more, -, -, -, hq⟩ := step_queue_of_grows h hlt
    simp [hq]
  · simp [heq]
  · obtain ⟨-, -, w, rest, turns, n, hq, hp⟩ := step_pop_of_shrinks h hen hgt
    rw [hp.q, hq]
    simp

/-- What the queue holds and what is accepted later is never more than the capacity and what is popped later. -/
theorem queue_add_acceptedIn_le (n : Nat) (hs : s.Inv) (hen : (s.eng c).en = true) :
    (s.eng c).q.length + acceptedIn c n s ≤ s.cfg.qDepth + drainedIn c n s := by
  have hbound := (hs.started_ok c hen).queue_bounded
  induction n generalizing s with
  | zero => simpa [acceptedIn, drainedIn] using hbound
  | succ n ih =>
    simp only [acceptedIn, drainedIn]
    cases h : step s with
    | next t =>
      have hinv : t.Inv := everyStepKeepsTheInvariant s t hs h
      obtain ⟨hkeep, -, -, hcfg, -⟩ := nothingIsTakenBack s t h
      have hrest := ih hinv (hkeep c hen) (hinv.started_ok c (hkeep c hen)).queue_bounded
      have hbalance := step_queue_balance h hen
      rw [hcfg] at hrest
      simp only
      omega
    | fault r => simpa using hbound
    | refused r => simpa using hbound

/-- Settles O23: the count by induction on the steps, and the first pop since the window of an early one is shut. -/
theorem backPressure : Obligations.BackPressure := by
  refine ⟨fun c n s hs hen hq => ?_, fun c s t hen hb h hlt => ?_⟩
  · simpa [hq] using queue_add_acceptedIn_le n hs hen
  · obtain ⟨-, -, w, rest, turns, n, -, hp⟩ := step_pop_of_shrinks h hen hlt
    simpa using hp.refills (by simpa using hb)

/-! ### The bits still to be sent -/

theorem bitAt_ushiftRight_one (v : FramedWord) (i : Nat) : bitAt (v >>> 1) i = bitAt v (i + 1) := by
  simp [bitAt, Nat.add_comm]

/-- A shift sends the first of the remaining bits of a word (R93). -/
theorem restOfWord_eq_cons (hc : e.cnt.val < 11) : restOfWord e = bitAt e.osr 0 :: restOfWord (shiftOut e) := by
  have hlen : Config.thresh - e.cnt.val = Config.thresh - (e.cnt.val + 1) + 1 := by simp only [Config.thresh]; omega
  simp [restOfWord, cnt_succ hc, hlen, List.range_succ_eq_map, bitAt_ushiftRight_one, Function.comp_def]

theorem restOfWord_of_exhausted (hc : e.cnt.val = 11) : restOfWord e = [] := by
  simp [restOfWord, hc, Config.thresh]

theorem restOfWord_loadWord (w : FramedWord) (e : Engine) : restOfWord (loadWord w e) = wordBits w := rfl

theorem unsent_eq_cons (hc : e.cnt.val < 11) : unsent e = (shiftOut e).dat :: unsent (shiftOut e) := by
  simp [unsent, restOfWord_eq_cons hc]

/-- A refill moves the bits of the next word into the register, and sends none (R94). -/
theorem unsent_loadWord (hc : e.cnt.val = 11) (ht : takeWord e = some (w, e')) : unsent (loadWord w e') = unsent e := by
  rcases takeWord_cases ht with ⟨he, rfl⟩ | ⟨hn, rest, hq, rfl⟩
  · simp [unsent, restOfWord_loadWord, restOfWord_of_exhausted hc, he]
  · simp [unsent, restOfWord_loadWord, restOfWord_of_exhausted hc, hn, hq]

/-- An early pop takes the head aside and keeps its place in the order (R105). -/
theorem unsent_earlyPop (hn : e.early = none) (hq : e.q = w :: rest) :
    unsent { e with q := rest, early := some w } = unsent e := by
  simp [unsent, restOfWord, hn, hq]

theorem unsent_push (w : FramedWord) (e : Engine) :
    unsent { e with q := e.q ++ [w] } = unsent e ++ wordBits w := by
  simp [unsent, restOfWord]

/-- A tick sends no bit and leaves the data pin, or is the SHIFT that sends the first of the bits still to be sent. -/
theorem TickMove.unsent (hm : TickMove e e') :
    (unsent e' = unsent e ∧ e'.dat = e.dat) ∨ (e.upc = 1 ∧ e'.upc = 2 ∧ unsent e = e'.dat :: unsent e') := by
  cases hm with
  | shift hd hu hc => exact .inr ⟨hu, rfl, unsent_eq_cons hc⟩
  | refill w e₁ hd hu hc ht =>
    have hzero : (loadWord w e₁).cnt.val < 11 := by simp
    exact .inr ⟨hu, rfl, by rw [← unsent_loadWord hc ht, unsent_eq_cons hzero]⟩
  | _ => exact .inl ⟨rfl, rfl⟩

/-- Settles O33: by the moves of a started channel. -/
theorem bitsGoOutInEnqueueOrder : Obligations.BitsGoOutInEnqueueOrder := by
  intro s t c hen h
  obtain ⟨turns, n, hm⟩ := step_channel h c
  generalize t.eng c = e at hm ⊢
  cases hm with
  | same => exact .inl (by simp)
  | start hh ho he => simp [hen] at he
  | tick p e hp ha hm =>
    rw [takeOff_eng] at hm
    rcases hm.unsent with hkeep | hsend
    · exact .inl hkeep
    · exact .inr (.inl hsend)
  | count ha hp =>
    rw [takeOff_eng]
    exact .inl ⟨rfl, rfl⟩
  | early w rest ha hw hn hq =>
    rw [takeOff_eng] at hn hq ⊢
    exact .inl ⟨unsent_earlyPop hn hq, rfl⟩
  | enqueued w more ht hs ha hl =>
    rw [takeOff_eng]
    exact .inr (.inr ⟨w, more, ht, hs, unsent_push w (s.eng c), rfl⟩)

end Sys2Proof.Machine
end

section
/-! PROOFS. The layout of a FramedWord, its parity bit, and the code read back (30_encoding.md R60, R72;
40_frame_encoder.md R81, R82, R87). -/

namespace Sys2Proof.Machine

variable {n i : Nat} {w : FramedWord} {code : RawCode}

/-! ### Bits -/

theorem bitAt_eq_one_iff {v : BitVec n} : bitAt v i = 1#1 ↔ v.getLsbD i = true := by
  cases h : v.getLsbD i <;> simp [bitAt, h]

theorem bitAt_eq_zero_iff {v : BitVec n} : bitAt v i = 0#1 ↔ v.getLsbD i = false := by
  cases h : v.getLsbD i <;> simp [bitAt, h]

theorem bitAt_eq_bitAt_iff {m j : Nat} {v : BitVec n} {u : BitVec m} :
    bitAt v i = bitAt u j ↔ v.getLsbD i = u.getLsbD j := by
  cases hv : v.getLsbD i <;> cases hu : u.getLsbD j <;> simp [bitAt, hv, hu]

/-- A word is its bits. -/
theorem eq_of_bitAt_eq {v u : BitVec n} (h : ∀ i < n, bitAt v i = bitAt u i) : v = u :=
  BitVec.eq_of_getLsbD_eq fun i hi => bitAt_eq_bitAt_iff.1 (h i hi)

theorem toNat_bitAt (v : BitVec n) (i : Nat) : (bitAt v i).toNat = (v.getLsbD i).toNat := by
  cases h : v.getLsbD i <;> simp [bitAt, h]

/-- On single bits, exclusive-or is the sum modulo 2. -/
theorem toNat_xor_bit (a b : Bit) : (a ^^^ b).toNat = (a.toNat + b.toNat) % 2 := by
  revert a b; decide

theorem toNat_not_bit (a : Bit) : (~~~a).toNat = (a.toNat + 1) % 2 := by
  revert a; decide

/-- The number of 1-bits, counted without the highest bit. -/
theorem popcount_succ (v : BitVec (n + 1)) : popcount v = popcount (v.setWidth n) + (bitAt v n).toNat := by
  have hlow : (List.range n).countP (fun i => v.getLsbD i) = popcount (v.setWidth n) :=
    List.countP_congr fun i hi => by simp [List.mem_range.1 hi]
  rw [popcount, List.range_succ, List.countP_append, hlow, List.countP_singleton, toNat_bitAt]
  cases v.getLsbD n <;> rfl

/-! ### The parity bit -/

/-- The eight bits of a code, added up. -/
theorem popcount_code (code : RawCode) :
    popcount code = (bitAt code 0).toNat + (bitAt code 1).toNat + (bitAt code 2).toNat + (bitAt code 3).toNat
      + (bitAt code 4).toNat + (bitAt code 5).toNat + (bitAt code 6).toNat + (bitAt code 7).toNat := by
  have hnone (v : BitVec 0) : popcount v = 0 := rfl
  have hbit {m k : Nat} (hk : k < m) : bitAt (code.setWidth m) k = bitAt code k :=
    bitAt_eq_bitAt_iff.2 (by simp [hk])
  simp [popcount_succ, hnone, hbit]

/-- R81: the parity bit makes the number of 1-bits odd. -/
theorem toNat_par (code : RawCode) : (par code).toNat = (popcount code + 1) % 2 := by
  simp only [par, toNat_not_bit, toNat_xor_bit, popcount_code]
  omega

/-! ### The four fields of a FramedWord -/

/-- R60: a bit of a frame is the stop bit, the parity bit, a bit of the code, or 0. -/
theorem getLsbD_frame (code : RawCode) (i : Nat) :
    (frame code).getLsbD i =
      (decide (i = 10) || decide (i = 9) && (par code).getLsbD 0 || decide (1 ≤ i) && code.getLsbD (i - 1)) := by
  have hcode (h : 8 ≤ i - 1) : code.getLsbD (i - 1) = false := BitVec.getLsbD_of_ge _ _ h
  have hpar (h : 1 ≤ i - 9) : (par code).getLsbD (i - 9) = false := BitVec.getLsbD_of_ge _ _ h
  simp only [frame, BitVec.getLsbD_or, BitVec.getLsbD_shiftLeft, BitVec.getLsbD_setWidth, BitVec.getLsbD_one]
  grind

theorem bitAt_frame_zero (code : RawCode) : bitAt (frame code) 0 = 0#1 := by
  rw [bitAt_eq_zero_iff, getLsbD_frame]
  simp

theorem bitAt_frame_succ (hi : i < 8) : bitAt (frame code) (i + 1) = bitAt code i := by
  have hstop : i ≠ 9 := by omega
  have hpar : i ≠ 8 := by omega
  rw [bitAt_eq_bitAt_iff, getLsbD_frame]
  simp [hstop, hpar]

/-- A single bit is its bit 0. -/
theorem bitAt_bit (b : Bit) : bitAt b 0 = b := by
  revert b; decide

theorem bitAt_frame_nine (code : RawCode) : bitAt (frame code) 9 = par code := by
  rw [← bitAt_bit (par code), bitAt_eq_bitAt_iff, getLsbD_frame]
  simp

theorem bitAt_frame_ten (code : RawCode) : bitAt (frame code) 10 = 1#1 := by
  rw [bitAt_eq_one_iff, getLsbD_frame]
  simp

/-- R60: bits 1 to 9 of a frame are the code and its parity bit. -/
theorem popcount_frame_payload (code : RawCode) :
    popcount ((frame code).extractLsb' 1 9) = popcount code + (par code).toNat := by
  have hbit (i : Nat) (hi : i < 9) : bitAt ((frame code).extractLsb' 1 9) i = bitAt (frame code) (i + 1) :=
    bitAt_eq_bitAt_iff.2 (by simp [hi, Nat.add_comm])
  have hcode : ((frame code).extractLsb' 1 9).setWidth 8 = code := eq_of_bitAt_eq fun i hi =>
    calc bitAt (((frame code).extractLsb' 1 9).setWidth 8) i
        = bitAt ((frame code).extractLsb' 1 9) i := bitAt_eq_bitAt_iff.2 (by simp [hi])
      _ = bitAt (frame code) (i + 1) := hbit i (by omega)
      _ = bitAt code i := bitAt_frame_succ hi
  rw [popcount_succ, hcode, hbit 8 (by omega), bitAt_frame_nine]

/-- The wire order of any word, written out (R45). -/
theorem wordBits_eq (w : FramedWord) :
    wordBits w = [bitAt w 0, bitAt w 1, bitAt w 2, bitAt w 3, bitAt w 4, bitAt w 5, bitAt w 6, bitAt w 7,
      bitAt w 8, bitAt w 9, bitAt w 10] := rfl

/-- Settles O2: the bits field by field, and the odd count since bits 1 to 9 are the code and its parity bit. -/
theorem framedWordLayout : Obligations.FramedWordLayout := by
  intro code
  refine ⟨bitAt_frame_zero code, fun i hi => bitAt_frame_succ hi, bitAt_frame_nine code, bitAt_frame_ten code, ?_, ?_⟩
  · rw [popcount_frame_payload, toNat_par]
    omega
  · rw [wordBits_eq]
    simp [bitAt_frame_zero, bitAt_frame_succ, bitAt_frame_nine, bitAt_frame_ten]

/-! ### Reading the code back -/

theorem bitAt_codeOf (hi : i < 8) : bitAt (codeOf w) i = bitAt w (i + 1) :=
  bitAt_eq_bitAt_iff.2 (by simp [codeOf, hi, Nat.add_comm])

theorem codeOf_frame (code : RawCode) : codeOf (frame code) = code :=
  eq_of_bitAt_eq fun _ hi => (bitAt_codeOf hi).trans (bitAt_frame_succ hi)

/-- R72. -/
theorem isProperFrame_iff :
    isProperFrame w = true ↔ bitAt w 0 = 0#1 ∧ bitAt w 10 = 1#1 ∧ bitAt w 9 = par (codeOf w) := by
  simp only [isProperFrame, Bool.and_eq_true, decide_eq_true_eq, and_assoc]
  rfl

theorem isProperFrame_frame (code : RawCode) : isProperFrame (frame code) = true :=
  isProperFrame_iff.2 ⟨bitAt_frame_zero code, bitAt_frame_ten code, by rw [bitAt_frame_nine, codeOf_frame]⟩

/-- A proper frame has no bit that its code does not fix (R87). -/
theorem frame_codeOf (h : isProperFrame w = true) : frame (codeOf w) = w := by
  obtain ⟨hstart, hstop, hpar⟩ := isProperFrame_iff.1 h
  refine eq_of_bitAt_eq fun i hi => ?_
  obtain rfl | ⟨j, hj, rfl⟩ | rfl | rfl : i = 0 ∨ (∃ j, j < 8 ∧ i = j + 1) ∨ i = 9 ∨ i = 10 := by
    rcases i with _ | j
    · exact .inl rfl
    · by_cases hj : j < 8
      · exact .inr (.inl ⟨j, hj, rfl⟩)
      · omega
  · rw [bitAt_frame_zero, hstart]
  · rw [bitAt_frame_succ hj, bitAt_codeOf hj]
  · rw [bitAt_frame_nine, hpar]
  · rw [bitAt_frame_ten, hstop]

theorem disassemble_eq_some_iff : disassemble w = some code ↔ isProperFrame w = true ∧ codeOf w = code := by
  simp [disassemble]

/-- Settles O6: the code of a frame is read back, and a proper frame is the frame of the code read. -/
theorem properFramesAreTheImagesOfFrame : Obligations.ProperFramesAreTheImagesOfFrame := by
  refine ⟨fun w => ⟨fun h => ⟨codeOf w, frame_codeOf h⟩, ?_⟩, fun a b h => ?_, fun code => ?_, fun w code h => ?_⟩
  · rintro ⟨code, rfl⟩
    exact isProperFrame_frame code
  · rw [← codeOf_frame a, h, codeOf_frame]
  · exact disassemble_eq_some_iff.2 ⟨isProperFrame_frame code, codeOf_frame code⟩
  · obtain ⟨hp, rfl⟩ := disassemble_eq_some_iff.1 h
    exact (frame_codeOf hp).symm

end Sys2Proof.Machine
end

section
/-! PROOFS. The decoder and the encoder (30_encoding.md R60 to R69): each is the other's inverse, what is rejected, and the
words of the opcode table. -/

namespace Sys2Proof.Machine

variable {c : Channel} {src : Source} {b lo hi : Byte} {bytes : List Byte} {i : Instr} {w : FramedWord}

/-! ### What the decoder answers, by the place -/

theorem decode_store (c : Channel) (b : Byte) : decode (.store c) [b] = decodeSelector c b := rfl

theorem decode_codePort (b : Byte) : decode .codePort [b] = .ok (.frame b) := rfl

theorem decode_enqPort_of_lt (h : hi.toNat < 8) : decode (.enqPort c) [lo, hi] = .ok (.enq c (wordOfBytes lo hi)) :=
  if_pos h

theorem decode_enqPort_of_le (h : 8 ≤ hi.toNat) : decode (.enqPort c) [lo, hi] = .error .bitOutsideFormat :=
  if_neg (Nat.not_lt.2 h)

/-- R66: the three rows of the selector table. -/
theorem decodeSelector_eq_ok_iff :
    decodeSelector c b = .ok i ↔ (b = 0 ∧ i = .clkh c) ∨ (b = 1 ∧ i = .shift c) ∨ (b = 2 ∧ i = .clkl c) := by
  unfold decodeSelector
  split_ifs with h₀ h₁ h₂ h₃
  · simp [h₀, eq_comm]
  · simp [h₁, eq_comm]
  · simp [h₂, eq_comm]
  · simp [h₃]
  · exact iff_of_false nofun (by rintro (⟨hb, -⟩ | ⟨hb, -⟩ | ⟨hb, -⟩) <;> contradiction)

/-- A selector byte above 3 has a bit outside the two of its format (R66). -/
theorem decodeSelector_of_le (h : 4 ≤ b.toNat) : decodeSelector c b = .error .bitOutsideFormat := by
  have hne {k : Byte} (hk : k.toNat < 4) : b ≠ k := by
    rintro rfl
    omega
  rw [decodeSelector, if_neg (hne (by decide)), if_neg (hne (by decide)), if_neg (hne (by decide)),
    if_neg (hne (by decide))]

/-- The number of bytes of the format presented at a place (R69; log 11). -/
def formatBytes : Source → Nat
  | .store _ => 1
  | .codePort => 1
  | .enqPort _ => 2

/-- There is one length of each format (R69). -/
theorem decode_of_length_ne (h : bytes.length ≠ formatBytes src) : decode src bytes = .error .wrongLength := by
  rcases bytes with _ | ⟨b₀, _ | ⟨b₁, _ | ⟨b₂, more⟩⟩⟩
  case cons.nil =>
    cases src with
    | enqPort c => rfl
    | _ => exact absurd rfl h
  case cons.cons.nil =>
    cases src with
    | enqPort c => exact absurd rfl h
    | _ => rfl
  all_goals cases src <;> rfl

/-! ### Words and their bytes -/

theorem loByte_wordOfBytes (lo hi : Byte) : loByte (wordOfBytes lo hi) = lo := by
  refine eq_of_bitAt_eq fun i hi => bitAt_eq_bitAt_iff.2 ?_
  simp [loByte, wordOfBytes, hi]

theorem hiByte_wordOfBytes (h : hi.toNat < 8) : hiByte (wordOfBytes lo hi) = hi := by
  have hhigh (i : Nat) (hi₃ : 3 ≤ i) : hi.getLsbD i = false :=
    Nat.testBit_lt_two_pow (h.trans_le (Nat.pow_le_pow_right (by decide) hi₃ : 2 ^ 3 ≤ 2 ^ i))
  refine BitVec.eq_of_getLsbD_eq fun i hi₈ => ?_
  simp only [hiByte, wordOfBytes, BitVec.getLsbD_or, BitVec.getLsbD_shiftLeft, BitVec.getLsbD_setWidth,
    BitVec.getLsbD_ushiftRight]
  grind

/-! ### Decoding and encoding -/

theorem decode_bytes_of_word (c : Channel) (w : FramedWord) :
    decode (.enqPort c) [loByte w, hiByte w] = .ok (.enq c w) := by
  rw [decode_enqPort_of_lt (hiByte_lt w), wordOfBytes_bytes]

/-- Settles O52: a selector and a code by their rows, a queue entry since its two bytes give it back. -/
theorem decodeOfEncode : Obligations.DecodeOfEncode := by
  intro i _
  cases i with
  | clkh c => exact decodeSelector_eq_ok_iff.2 (.inl ⟨rfl, rfl⟩)
  | shift c => exact decodeSelector_eq_ok_iff.2 (.inr (.inl ⟨rfl, rfl⟩))
  | clkl c => exact decodeSelector_eq_ok_iff.2 (.inr (.inr ⟨rfl, rfl⟩))
  | frame code => exact decode_codePort code
  | enq c w => exact decode_bytes_of_word c w

theorem length_eq_of_decode_eq_ok (h : decode src bytes = .ok i) : bytes.length = formatBytes src := by
  by_contra hne
  rw [decode_of_length_ne hne] at h
  cases h

/-- Settles O53: by the place, at the one length of its format. -/
theorem encodingIsUnique : Obligations.EncodingIsUnique := by
  intro src bytes i h
  have hlen := length_eq_of_decode_eq_ok h
  cases src with
  | store c =>
    obtain ⟨b, rfl⟩ := List.length_eq_one_iff.1 hlen
    rw [decode_store] at h
    rcases decodeSelector_eq_ok_iff.1 h with ⟨rfl, rfl⟩ | ⟨rfl, rfl⟩ | ⟨rfl, rfl⟩ <;> rfl
  | codePort =>
    obtain ⟨b, rfl⟩ := List.length_eq_one_iff.1 hlen
    cases h
    rfl
  | enqPort c =>
    obtain ⟨lo, hi, rfl⟩ := List.length_eq_two.1 hlen
    rcases Nat.lt_or_ge hi.toNat 8 with hlt | hge
    · rw [decode_enqPort_of_lt hlt] at h
      cases h
      rw [encode, loByte_wordOfBytes, hiByte_wordOfBytes hlt]
    · rw [decode_enqPort_of_le hge] at h
      cases h

/-- Settles O54: a bit outside the format by the byte that has it, and the lengths by the one length of each format. -/
theorem illegalEncodingsAreRejected : Obligations.IllegalEncodingsAreRejected := by
  refine ⟨fun c => rfl, fun c b hb => decodeSelector_of_le hb, fun c lo hi h => decode_enqPort_of_le h,
    fun src => decode_of_length_ne ?_, fun c bs h => decode_of_length_ne h, fun bs h => decode_of_length_ne h,
    fun c bs h => decode_of_length_ne h⟩
  cases src <;> exact nofun

/-- Settles O55: the bytes are the encodings of the instructions. -/
theorem writtenWordsDecode : Obligations.WrittenWordsDecode :=
  ⟨decodeOfEncode (.clkh .kbd) rfl, decodeOfEncode (.shift .mse) rfl, decodeOfEncode (.clkl .kbd) rfl,
    decodeOfEncode (.frame 0x12) rfl, decodeOfEncode (.enq .mse 0x624) rfl⟩

/-! ### The words of the opcode table -/

/-- The mask of the table's FRAME row (log 10), as bits of the word. -/
theorem isFrameRow_toNat_iff : isFrameRow w.toNat = true ↔ bitAt w 10 = 1#1 ∧ bitAt w 0 = 0#1 := by
  rw [bitAt_eq_one_iff, bitAt_eq_zero_iff]
  simp only [isFrameRow, w.isLt, decide_true, Bool.true_and, Bool.and_eq_true, Bool.not_eq_true', BitVec.testBit_toNat]

theorem ofNat_half_toNat (w : FramedWord) : BitVec.ofNat 8 (w.toNat / 2) = codeOf w := by
  apply BitVec.eq_of_toNat_eq
  simp [codeOf, Nat.shiftRight_eq_div_pow]

theorem ofNat_toNat_eq_loByte (w : FramedWord) : BitVec.ofNat 8 w.toNat = loByte w := by
  apply BitVec.eq_of_toNat_eq
  simp [loByte]

theorem ofNat_div_toNat_eq_hiByte (w : FramedWord) : BitVec.ofNat 8 (w.toNat / 2 ^ 8) = hiByte w := by
  apply BitVec.eq_of_toNat_eq
  simp [hiByte, Nat.shiftRight_eq_div_pow]

/-- Where a two-byte table word is presented: a word of the FRAME row as its code, any other as a queue entry. -/
theorem tableEncoded_word (w : FramedWord) :
    tableEncoded 16 w.toNat =
      some (if isFrameRow w.toNat then encode (.frame (codeOf w)) else encode (.enq .kbd w)) := by
  have hw : w.toNat < 2 ^ 16 := w.isLt.trans (by decide)
  rw [tableEncoded, if_neg (by decide), if_pos ⟨by decide, hw⟩, ofNat_half_toNat, ofNat_toNat_eq_loByte,
    ofNat_div_toNat_eq_hiByte]
  split <;> rfl

/-- A table word that is presented as the encoding of an instruction is read as that instruction. -/
theorem decodeTableWord_of_encode {nbits n : Nat} (h : tableEncoded nbits n = some (encode i)) :
    decodeTableWord nbits n = some i := by
  simp only [decodeTableWord, h, decodeOfEncode i (by cases i <;> rfl)]
  rfl

theorem decodeTableWord_frameRow (h₁₀ : bitAt w 10 = 1#1) (h₀ : bitAt w 0 = 0#1) :
    decodeTableWord 16 w.toNat = some (.frame (codeOf w)) :=
  decodeTableWord_of_encode (by rw [tableEncoded_word, if_pos (isFrameRow_toNat_iff.2 ⟨h₁₀, h₀⟩)])

theorem decodeTableWord_entry (h : ¬ (bitAt w 10 = 1#1 ∧ bitAt w 0 = 0#1)) :
    decodeTableWord 16 w.toNat = some (.enq .kbd w) :=
  decodeTableWord_of_encode (by rw [tableEncoded_word, if_neg (mt isFrameRow_toNat_iff.1 h)])

/-- Settles O56: a frame and a queue entry are told apart by the mask of the FRAME row, and a frame's code is read
back. -/
theorem tableWordsDecode : Obligations.TableWordsDecode := by
  refine ⟨decodeTableWord_of_encode rfl, decodeTableWord_of_encode rfl, decodeTableWord_of_encode rfl,
    fun code => ?_, fun w hw => decodeTableWord_entry ?_, fun w h₁₀ h₀ => decodeTableWord_frameRow h₁₀ h₀⟩
  · rw [tableWord, decodeTableWord_frameRow (bitAt_frame_ten code) (bitAt_frame_zero code), codeOf_frame]
  · rintro ⟨h₁₀, h₀⟩
    rcases hw with h | h
    · simp [h₁₀] at h
    · simp [h₀] at h

end Sys2Proof.Machine
end

section
/-! PROOFS. The micro-program as a table and as what runs (30_encoding.md R64, R65). -/

namespace Sys2Proof.Machine

variable {e e' : Engine} {k : Fin 3} {v : Bit} {n d : Nat}

/-! ### The rows, by what they do -/

theorem microProgram_setClk (h : microProgram k = ⟨.setClk v, d⟩) :
    (k = 0 ∧ v = 1#1 ∧ d = 0) ∨ (k = 2 ∧ v = 0#1 ∧ d = 1) := by
  fin_cases k <;> cases h
  · exact .inl ⟨rfl, rfl, rfl⟩
  · exact .inr ⟨rfl, rfl, rfl⟩

theorem microProgram_shiftOut (h : microProgram k = ⟨.shiftOut n, d⟩) : k = 1 ∧ n = 1 ∧ d = 0 := by
  fin_cases k <;> cases h
  exact ⟨rfl, rfl, rfl⟩

/-! ### The moves they make -/

section
variable {c : Channel} {s t : State}

theorem tickMove_of_awake (hh : s.halted = false) (hen : (s.eng c).en = true) (h : tick c s = .next t) :
    TickMove (s.eng c) (t.eng c) := by
  have ha : asleep c s = false := asleep_eq_false_iff.2 ⟨hh, hen⟩
  rcases tick_move h with ⟨ha', -⟩ | ⟨-, e, hm, rfl⟩
  · simp [ha] at ha'
  · rwa [eng_setEng_self]

end

theorem TickMove.of_clkh (hm : TickMove e e') (hd : e.dly = 0) (hu : e.upc = 0) :
    e' = { e with clk := 1#1, upc := 1 } := by
  cases hm with
  | clkh => rfl
  | _ => simp_all

theorem TickMove.of_clkl (hm : TickMove e e') (hd : e.dly = 0) (hu : e.upc = 2) :
    e' = { e with clk := 0#1, dly := 1, upc := 0 } := by
  cases hm with
  | clkl => rfl
  | _ => simp_all

/-- A SHIFT that does not stall sends the first of the bits still to be sent, whether it refills or not (R93, R94). -/
theorem TickMove.of_shift (hm : TickMove e e') (hen : e.en = true) (hd : e.dly = 0) (hu : e.upc = 1)
    (hs : stalled e = false) :
    Machine.unsent e = e'.dat :: Machine.unsent e' ∧ e'.dly = 0 ∧ e'.upc = 2 := by
  cases hm with
  | shift _ _ hc => exact ⟨unsent_eq_cons hc, hd, rfl⟩
  | refill w e₁ _ _ hc ht =>
    obtain ⟨-, -, hdly, -⟩ := takeWord_frame ht
    have hzero : (loadWord w e₁).cnt.val < 11 := by simp
    exact ⟨by rw [← unsent_loadWord hc ht, unsent_eq_cons hzero], by simp [hdly, hd], rfl⟩
  | stall _ _ hc hstarved => simp [stalled, hen, hd, hu, exhausted_iff.2 hc, hstarved] at hs
  | _ => simp_all

/-- Settles O15: a row names its micro-step, and an awake engine makes that micro-step's move. -/
theorem microProgramTableIsWhatRuns : Obligations.MicroProgramTableIsWhatRuns := by
  refine ⟨fun c s t v d hh hen hd hrow h => ?_, fun c s t n d hh hen hd hs hrow h => ?_⟩
  · have hm := tickMove_of_awake hh hen h
    rcases microProgram_setClk hrow with ⟨hu, rfl, rfl⟩ | ⟨hu, rfl, rfl⟩
    · simp [hm.of_clkh hd hu, hd, hu, nextIndex]
    · simp [hm.of_clkl hd hu, hu, nextIndex]
  · have hm := tickMove_of_awake hh hen h
    obtain ⟨hu, rfl, rfl⟩ := microProgram_shiftOut hrow
    obtain ⟨hsent, hdly, hupc⟩ := hm.of_shift hen hd hu hs
    simp [hsent, hdly, hupc, hu, nextIndex]

end Sys2Proof.Machine
end

section
/-! PROOFS. The Frame Encoder (40_frame_encoder.md R80 to R86): the parity law, FRAME as a number and under a mask on
its code, and what its evaluation touches. -/

namespace Sys2Proof.Machine

variable {n i : Nat} {w : FramedWord} {code : RawCode}

/-! ### Bits of a composed word -/

theorem bitAt_of_le {v : BitVec n} (h : n ≤ i) : bitAt v i = 0#1 :=
  bitAt_eq_zero_iff.2 (BitVec.getLsbD_of_ge v i h)

theorem bitAt_xor (v u : BitVec n) (i : Nat) : bitAt (v ^^^ u) i = bitAt v i ^^^ bitAt u i := by
  simp [bitAt, BitVec.ofBool_xor_ofBool]

theorem bitAt_append {m : Nat} (v : BitVec n) (u : BitVec m) (i : Nat) :
    bitAt (v ++ u) i = if i < m then bitAt u i else bitAt v (i - m) := by
  rw [bitAt, BitVec.getLsbD_append, apply_ite BitVec.ofBool]
  rfl

/-- The bits of a field that stands at bit `k` of a FramedWord. -/
theorem bitAt_setWidth_shiftLeft (v : BitVec n) (k : Nat) (hi : i < 11) :
    bitAt (v.setWidth 11 <<< k) i = if i < k then 0#1 else bitAt v (i - k) := by
  split
  next h => simp [bitAt_eq_zero_iff, h]
  next h => simp [bitAt_eq_bitAt_iff, h, hi]

/-! ### The parity law (R81) -/

theorem par_eq_one_iff : par code = 1#1 ↔ popcount code % 2 = 0 := by
  rw [← BitVec.toNat_inj, toNat_par, BitVec.toNat_ofNat]
  omega

theorem par_eq_zero_iff : par code = 0#1 ↔ popcount code % 2 = 1 := by
  rw [← BitVec.toNat_inj, toNat_par, BitVec.toNat_ofNat]
  omega

theorem popcount_add_par_odd (code : RawCode) : (popcount code + (par code).toNat) % 2 = 1 := by
  rw [toNat_par]
  omega

/-- Settles O1: the parity bit is one more than the number of 1-bits, modulo 2. -/
theorem parityBitForcesOddTotal : Obligations.ParityBitForcesOddTotal :=
  fun code => ⟨rfl, par_eq_one_iff, par_eq_zero_iff, popcount_add_par_odd code⟩

/-! ### The packing (R82) -/

/-- A word with the four fields of a frame is that frame. -/
theorem frame_eq_of_fields (hstart : bitAt w 0 = 0#1) (hcode : codeOf w = code) (hpar : bitAt w 9 = par code)
    (hstop : bitAt w 10 = 1#1) : frame code = w := by
  subst hcode
  exact frame_codeOf (isProperFrame_iff.2 ⟨hstart, hstop, hpar⟩)

/-- A concatenation as a number. -/
theorem toNat_append_eq_add {m : Nat} (v : BitVec n) (u : BitVec m) :
    (v ++ u).toNat = 2 ^ m * v.toNat + u.toNat := by
  rw [BitVec.toNat_append, ← Nat.shiftLeft_add_eq_or_of_lt u.isLt, Nat.shiftLeft_eq, Nat.mul_comm]

/-- R82: the four fields side by side. -/
theorem frame_eq_append (code : RawCode) : frame code = (1#1 ++ par code ++ code ++ 0#1 : BitVec 11) := by
  refine frame_eq_of_fields ?_ (eq_of_bitAt_eq fun i hi => ?_) ?_ ?_
  · simp only [bitAt_append]
    rfl
  · simp only [bitAt_codeOf hi, bitAt_append]
    simp [hi]
  · simp only [bitAt_append]
    simp [bitAt_bit]
  · simp only [bitAt_append]
    rfl

/-- R82: the fields do not overlap, so that no carry occurs. -/
theorem toNat_frame (code : RawCode) : (frame code).toNat = 1024 + 512 * (par code).toNat + 2 * code.toNat := by
  rw [frame_eq_append]
  simp only [toNat_append_eq_add, BitVec.toNat_ofNat]
  omega

theorem toNat_frame_le (code : RawCode) : (frame code).toNat ≤ 2046 := by
  have hcode : code.toNat < 2 ^ 8 := code.isLt
  have hpar : (par code).toNat < 2 ^ 1 := (par code).isLt
  rw [toNat_frame]
  omega

/-- Settles O3: the OR is the definition, the concatenation has the same fields, and the sum is read off from it. -/
theorem framePackingAsNumber : Obligations.FramePackingAsNumber :=
  fun code => ⟨BitVec.or_zero.symm, frame_eq_append code, toNat_frame code, toNat_frame_le code⟩

/-! ### The integer laws (R83) -/

/-- A code with an odd number of 1-bits is not 0. -/
theorem toNat_pos_of_popcount_odd (h : popcount code % 2 = 1) : 0 < code.toNat := by
  refine Nat.pos_of_ne_zero fun hzero => ?_
  obtain rfl : code = 0#8 := BitVec.eq_of_toNat_eq hzero
  exact absurd h (by decide)

/-- R83 item 3. -/
theorem toNat_frame_eq_ite (code : RawCode) :
    (frame code).toNat = (if popcount code % 2 = 0 then 0x600 else 0x400) + 2 * code.toNat := by
  rw [toNat_frame, toNat_par]
  split <;> omega

theorem le_toNat_frame (code : RawCode) : 1026 ≤ (frame code).toNat := by
  rw [toNat_frame_eq_ite]
  split
  next => omega
  next hodd =>
    have hpos : 0 < code.toNat := toNat_pos_of_popcount_odd (by omega)
    omega

/-- The parity bit flips with each code bit (R83 item 4). -/
theorem par_xor (code m : RawCode) : par (code ^^^ m) = par code ^^^ ~~~par m := by
  simp only [par, bitAt_xor, BitVec.not_not, BitVec.not_xor_left]
  ac_nf

/-- A mask on the code flips the bits one place above its own, and the parity bit when it flips an odd number of them
(R83 item 4). -/
theorem frame_xor (code m : RawCode) :
    frame (code ^^^ m) = frame code ^^^ (m.setWidth 11 <<< 1) ^^^ ((~~~par m).setWidth 11 <<< 9) := by
  refine frame_eq_of_fields ?_ (eq_of_bitAt_eq fun i hi => ?_) ?_ ?_
  · simp [bitAt_xor, bitAt_frame_zero, bitAt_setWidth_shiftLeft]
  · have hword : i + 1 < 11 := by omega
    simp [bitAt_xor, bitAt_codeOf, hi, bitAt_frame_succ, bitAt_setWidth_shiftLeft, hword]
  · simp [bitAt_xor, bitAt_frame_nine, par_xor, bitAt_setWidth_shiftLeft, bitAt_of_le, bitAt_bit]
  · simp [bitAt_xor, bitAt_frame_ten, bitAt_setWidth_shiftLeft, bitAt_of_le]

/-- Settles O4: items 1 to 3 are read off from the sum, item 4 is the mask's effect on the four fields. -/
theorem frameIntegerLaws : Obligations.FrameIntegerLaws := by
  refine ⟨fun code => ⟨le_toNat_frame code, toNat_frame_le code⟩, fun code => ?_, toNat_frame_eq_ite, fun code m => ?_⟩
  · rw [toNat_frame]
    omega
  · rw [frame_xor]
    split
    next heven =>
      rw [par_eq_one_iff.2 heven]
      rfl
    next hodd =>
      rw [par_eq_zero_iff.2 (by omega)]
      rfl

/-! ### The invariants of the source (R84) -/

theorem codeOf_eq_extractLsb' (w : FramedWord) : codeOf w = w.extractLsb' 1 8 :=
  BitVec.setWidth_ushiftRight_eq_extractLsb

/-- Settles O5: start, stop and payload are fields of the frame, and the parity law counts bits 1 to 9. -/
theorem frameInvariantsOfTheSource : Obligations.FrameInvariantsOfTheSource := by
  refine ⟨fun code => ⟨bitAt_frame_zero code, bitAt_frame_ten code⟩, fun code => ?_, fun code => ?_⟩
  · rw [popcount_frame_payload, popcount_add_par_odd]
  · rw [← codeOf_eq_extractLsb', codeOf_frame]

/-! ### What an evaluation touches (R80, R85, R86) -/

/-- What FRAME makes of the state: the port and the log, and nothing else. -/
theorem exec_frame (code : RawCode) (s : State) :
    exec (.frame code) s =
      .next { s with codeI := code, diag := s.diag ++ [.info code, .debug (frame code)] } := rfl

/-- The port and the log are no part of a channel. -/
theorem eng_of_exec_frame {s t : State} (h : exec (.frame code) s = .next t) (c : Channel) : t.eng c = s.eng c := by
  rw [exec_frame] at h
  cases h
  cases c <;> rfl

/-- Settles O7: four of the pins are levels of the two channels, and the control line is no field that FRAME writes. -/
theorem frameCompletes : Obligations.FrameCompletes := by
  refine fun code s => ⟨exec_frame code s, fun t h => ?_⟩
  have heng (c : Channel) : t.eng c = s.eng c := eng_of_exec_frame h c
  rw [exec_frame] at h
  cases h
  refine ⟨rfl, heng, fun p => ?_⟩
  cases p with
  | clk c => exact congrArg Engine.clk (heng c)
  | dat c => exact congrArg Engine.dat (heng c)
  | ctl => rfl

end Sys2Proof.Machine
end

section
/-! PROOFS. The tick by its arms, and the exact effect of each micro-step (41_serial_clock_engine.md R91 to R97). -/

namespace Sys2Proof.Machine

variable {c : Channel} {s t : State} {e : Engine} {w : FramedWord}

/-! ### The arms of the tick -/

theorem tick_asleep (ha : asleep c s = true) : tick c s = .next s := if_pos ha

/-- R100. -/
theorem tick_next (c : Channel) (s : State) : ∃ t, tick c s = .next t := by
  cases ha : asleep c s with
  | true => exact ⟨s, tick_asleep ha⟩
  | false =>
    obtain ⟨t, ht, -⟩ := tick_awake c s ha
    exact ⟨t, ht⟩

/-- A pending delay is one tick long (R13, R97). -/
theorem delayTick_of_dly_ne_zero (hd : e.dly ≠ 0) : delayTick e = { e with dly := 0 } := by
  have hone : e.dly = 1 := Fin.eq_one_of_ne_zero _ hd
  simp [delayTick, hone]

section
variable (hh : s.halted = false) (hen : (s.eng c).en = true) (hd : (s.eng c).dly = 0)
include hh hen hd

/-- The tick of an awake engine without a delay pending runs what its selector decodes to (R66, R91). -/
theorem tick_of_decode {i : Instr} (hi : decode (.store c) (selectorBytes (s.eng c).upc) = .ok i) :
    tick c s = exec i s := by
  simp [tick, asleep, hh, hen, hd, runFetched, hi]

theorem tick_eq_exec_clkh (hu : (s.eng c).upc = 0) : tick c s = exec (.clkh c) s :=
  tick_of_decode hh hen hd (by rw [hu]; rfl)

theorem tick_eq_exec_shift (hu : (s.eng c).upc = 1) : tick c s = exec (.shift c) s :=
  tick_of_decode hh hen hd (by rw [hu]; rfl)

theorem tick_eq_exec_clkl (hu : (s.eng c).upc = 2) : tick c s = exec (.clkl c) s :=
  tick_of_decode hh hen hd (by rw [hu]; rfl)

end

/-- Settles O27: one law of the tick for each of its arms. -/
theorem tickDispatch : Obligations.TickDispatch := by
  refine fun c s => ⟨fun h => tick_asleep ?_, fun hh hen => ⟨fun hd => ?_, fun hd => ?_⟩, tick_next c s⟩
  · simpa [asleep] using h
  · have h := tick_delay (c := c) hh hen hd
    rwa [setEng_eng, delayTick_of_dly_ne_zero hd] at h
  · exact ⟨tick_eq_exec_clkh hh hen hd, tick_eq_exec_shift hh hen hd, tick_eq_exec_clkl hh hen hd⟩

/-! ### CLKH and CLKL -/

theorem exec_clkh (c : Channel) (s : State) :
    exec (.clkh c) s = .next (s.setEng c { s.eng c with clk := 1#1, upc := 1 }) := rfl

theorem exec_clkl (c : Channel) (s : State) :
    exec (.clkl c) s = .next (s.setEng c { s.eng c with clk := 0#1, dly := 1, upc := 0 }) := rfl

/-- Settles O8: the tick at index 0 is CLKH, and a clock that is high does not rise. -/
theorem clkhCompletes : Obligations.ClkhCompletes := by
  refine ⟨exec_clkh, fun c s hh hen hd hu => tick_eq_exec_clkh hh hen hd hu, fun c s t hclk _ => ?_⟩
  simp [rises, hclk]

/-- Settles O14: the tick at index 2 is CLKL, and the invariant has the clock high before it. -/
theorem clklCompletes : Obligations.ClklCompletes := by
  refine ⟨exec_clkl, fun c s hh hen hd hu => tick_eq_exec_clkl hh hen hd hu, fun c s t hi hu h => ?_⟩
  have hclk : (s.eng c).clk = 1#1 := hi.high_before_shift (by simp [hu])
  rw [exec_clkl] at h
  cases h
  simp [falls, hclk]

/-! ### SHIFT: a bit, a refill, a stall -/

theorem exec_shift_bit (hc : (s.eng c).cnt.val < 11) :
    exec (.shift c) s = .next (s.setEng c (shiftOut (s.eng c))) := by
  simp [exec, execShift, not_exhausted_iff.2 hc]

theorem exec_shift_refill (hc : (s.eng c).cnt.val = 11) (ht : takeWord (s.eng c) = some (w, e)) :
    exec (.shift c) s = .next (s.setEng c (shiftOut (loadWord w e))) := by
  simp [exec, execShift, exhausted_iff.2 hc, ht]

theorem exec_shift_stall (hc : (s.eng c).cnt.val = 11) (hs : starved (s.eng c) = true) :
    exec (.shift c) s = .next s := by
  simp [exec, execShift, exhausted_iff.2 hc, takeWord_eq_none_iff.2 hs]

/-- A waiting early entry goes before the queue (log 8). -/
theorem takeWord_of_early (he : e.early = some w) : takeWord e = some (w, { e with early := none }) := by
  simp [takeWord, he]

theorem starved_iff : starved e = true ↔ e.q = [] ∧ e.early = none := by
  simp [starved, empty]

/-- R95: a stalled engine's tick changes nothing. -/
theorem tick_stall (hh : s.halted = false) (hen : (s.eng c).en = true) (hd : (s.eng c).dly = 0)
    (hu : (s.eng c).upc = 1) (hc : (s.eng c).cnt.val = 11) (hs : starved (s.eng c) = true) : tick c s = .next s := by
  rw [tick_eq_exec_shift hh hen hd hu, exec_shift_stall hc hs]

/-- The bit that enters the register is a 0 (D17). -/
theorem bitAt_ten_ushiftRight_one (v : FramedWord) : bitAt (v >>> 1) 10 = 0#1 := by
  rw [bitAt_ushiftRight_one, bitAt_of_le (by decide)]

/-- Settles O9: SHIFT below the eleventh bit is `shiftOut`, which counts without wrapping and leaves the clock. -/
theorem shiftPlainCompletes : Obligations.ShiftPlainCompletes := by
  intro c s hc
  have hx := exec_shift_bit hc
  refine ⟨hx, cnt_succ hc, bitAt_ten_ushiftRight_one _, fun t h => ?_,
    fun hh hen hd hu => tick_eq_exec_shift hh hen hd hu, fun hi hu => ?_⟩
  · rw [hx] at h
    cases h
    rw [eng_setEng_self, exhausted_iff, shiftOut_cnt, cnt_succ hc]
    omega
  · have hclk : (s.eng c).clk = 1#1 := hi.high_before_shift (by simp [hu])
    refine ⟨hclk, fun t h => ?_⟩
    rw [hx] at h
    cases h
    simpa using hclk

/-- Settles O10: the refill takes the head, and the queue is one shorter. -/
theorem shiftRefillCompletes : Obligations.ShiftRefillCompletes := by
  intro c s w rest hc hn hq
  have hx := exec_shift_refill hc (takeWord_of_cons hn hq)
  refine ⟨hx, fun t h hl => ?_⟩
  rw [hx] at h
  cases h
  rw [hq, List.length_cons] at hl
  simpa [full_eq_false_iff] using hl

/-- Settles O11: the refill takes the early entry. -/
theorem shiftLoadsTheEarlyEntry : Obligations.ShiftLoadsTheEarlyEntry :=
  fun _ _ _ hc he => exec_shift_refill hc (takeWord_of_early he)

/-- Settles O12: a starved engine has no word to take. -/
theorem shiftStallChangesNothing : Obligations.ShiftStallChangesNothing := by
  intro c s hc hn hq
  have hs : starved (s.eng c) = true := starved_iff.2 ⟨hq, hn⟩
  exact ⟨exec_shift_stall hc hs, fun hh hen hd hu => tick_stall hh hen hd hu hc hs⟩

/-! ### The stalled engine -/

theorem falls_self (e : Engine) : falls e e = false := by
  rcases BitVec.eq_zero_or_eq_one e.clk with h | h <;> simp [falls, h]

theorem rises_self (e : Engine) : rises e e = false := by
  rcases BitVec.eq_zero_or_eq_one e.clk with h | h <;> simp [rises, h]

theorem stalled_iff :
    stalled e = true ↔ e.en = true ∧ e.dly = 0 ∧ e.upc = 1 ∧ e.cnt.val = 11 ∧ starved e = true := by
  simp [stalled, exhausted_iff, and_assoc]

/-- A tick that changes nothing is repeated for any number of ticks, and shows no edge. -/
theorem ticks_of_tick_eq_self (h : tick c s = .next s) (n : Nat) :
    ticks c n s = .next s ∧ sampled c n s = [] ∧ risingEdges c n s = 0 := by
  induction n with
  | zero => exact ⟨rfl, rfl, rfl⟩
  | succ n ih => simpa [ticks, sampled, risingEdges, h, falls_self, rises_self] using ih

/-- Settles O44: the tick of a stalled engine changes nothing. -/
theorem stalledEngineRests : Obligations.StalledEngineRests := by
  intro c s n hh hs
  obtain ⟨hen, hd, hu, hc, hs⟩ := stalled_iff.1 hs
  exact ticks_of_tick_eq_self (tick_stall hh hen hd hu hc hs) n

/-! ### What every instruction leaves alone -/

/-- What no instruction writes: all the state but the queue and the shift machinery of the channels, the log and the
port `code_i` (R11, R27, R28, R140). -/
def KeepsShared (s t : State) : Prop :=
  t.ctl = s.ctl ∧ t.halted = s.halted ∧ t.cfg = s.cfg ∧ t.ctlDone = s.ctlDone ∧ t.script = s.script ∧
    t.schedule = s.schedule ∧ t.drawn = s.drawn ∧
    ∀ c, (t.eng c).en = (s.eng c).en ∧ (t.eng c).phase = (s.eng c).phase

theorem KeepsShared.refl (s : State) : KeepsShared s s := by
  simp [KeepsShared]

/-- A write to one channel keeps the shared part when it keeps `en` and the divider of that channel. -/
theorem keepsShared_setEng (hen : e.en = (s.eng c).en) (hphase : e.phase = (s.eng c).phase) :
    KeepsShared s (s.setEng c e) := by
  refine ⟨by simp, by simp, by simp, by simp, by simp, by simp, by simp, fun d => ?_⟩
  by_cases hdc : d = c
  · subst hdc
    simp [hen, hphase]
  · simp [eng_setEng_of_ne _ _ hdc]

/-- A SHIFT keeps the shared part and, of its own channel, the clock and the delay; the queue it leaves or pops (R93 to
R95). -/
theorem exec_shift_frame (h : exec (.shift c) s = .next t) :
    KeepsShared s t ∧ t.eng c.other = s.eng c.other ∧ t.diag = s.diag ∧ t.codeI = s.codeI ∧
      (t.eng c).clk = (s.eng c).clk ∧ (t.eng c).dly = (s.eng c).dly ∧
      ((t.eng c).q = (s.eng c).q ∨ (t.eng c).q = (s.eng c).q.tail ∧ (s.eng c).cnt.val = 11) := by
  rcases execShift_cases h with ⟨-, rfl⟩ | ⟨w, e, hc, ht, rfl⟩ | ⟨-, -, rfl⟩
  · exact ⟨keepsShared_setEng rfl rfl, by simp⟩
  · obtain ⟨hen, -, hdly, -, -, hclk, -, hphase, -⟩ := takeWord_frame ht
    have hq : e.q = (s.eng c).q ∨ e.q = (s.eng c).q.tail := by
      rcases takeWord_cases ht with ⟨-, rfl⟩ | ⟨-, rest, hq, rfl⟩
      · exact .inl rfl
      · exact .inr (by rw [hq, List.tail_cons])
    exact ⟨keepsShared_setEng hen hphase, by simpa [hclk, hdly, hc] using hq⟩
  · exact ⟨.refl _, by simp⟩

/-- An ENQ keeps all but the queue of its channel (R111). -/
theorem exec_enq_frame (h : exec (.enq c w) s = .next t) :
    KeepsShared s t ∧ t.eng c.other = s.eng c.other ∧ t.diag = s.diag ∧ t.codeI = s.codeI ∧
      { t.eng c with q := (s.eng c).q } = s.eng c := by
  obtain ⟨-, -, ⟨-, rfl⟩ | ⟨-, rfl⟩⟩ := execEnq_cases h
  · exact ⟨keepsShared_setEng rfl rfl, by simp⟩
  · exact ⟨.refl _, by simp⟩

/-- What no instruction writes, whichever it is. -/
theorem exec_keepsShared {i : Instr} (h : exec i s = .next t) : KeepsShared s t := by
  cases i with
  | clkh c => cases h; exact keepsShared_setEng rfl rfl
  | shift c => exact (exec_shift_frame h).1
  | clkl c => cases h; exact keepsShared_setEng rfl rfl
  | frame code => cases h; exact .refl _
  | enq c w => exact (exec_enq_frame h).1

/-- Settles O26: what is shared for all instructions at once, then the channel by instruction. -/
theorem instructionFrames : Obligations.InstructionFrames := by
  refine fun i s t h => ⟨exec_keepsShared h, ?_⟩
  cases i with
  | clkh c => cases h; simp
  | shift c => exact (exec_shift_frame h).2
  | clkl c => cases h; simp
  | frame code => exact eng_of_exec_frame h
  | enq c w => exact (exec_enq_frame h).2

end Sys2Proof.Machine
end

section
/-! PROOFS. The moves of a channel taken as an engine's control flow (41_serial_clock_engine.md R98, R99), and the step
as the run of a decoded instruction (30_encoding.md R66, 42_producer_interface.md R110). -/

namespace Sys2Proof.Machine

variable {c : Channel} {s t : State} {e e' : Engine} {turn : Turn} {turns : List Turn} {r : Request}
  {more : List Request} {i : Instr} {p : Params}

/-! ### Control transfers -/

/-- A tick that transfers control goes on to the next index, with no delay pending. -/
theorem TickMove.upc (hm : TickMove e e') (hne : e'.upc ≠ e.upc) : e.dly = 0 ∧ e'.upc = nextIndex e.upc := by
  cases hm with
  | delay hd => exact absurd rfl hne
  | clkh hd hu => exact ⟨hd, by simp [hu, nextIndex]⟩
  | shift hd hu hc => exact ⟨hd, by simp [hu, nextIndex]⟩
  | refill w e₁ hd hu hc ht => exact ⟨hd, by simp [hu, nextIndex]⟩
  | stall => exact absurd rfl hne
  | clkl hd hu => exact ⟨hd, by simp [hu, nextIndex]⟩

/-- Settles O30: of the moves of a started channel only a tick writes the index. -/
theorem controlTransfers : Obligations.ControlTransfers := by
  intro s t c hen h hne
  obtain ⟨turns, n, hm⟩ := step_channel h c
  generalize t.eng c = e at hm hne ⊢
  cases hm with
  | start hh ho he => simp [hen] at he
  | tick p e hp ha hm =>
    rw [takeOff_eng] at hm
    exact hm.upc hne
  | _ => simp at hne

/-! ### The source's two states -/

theorem coarse_eq_high_iff :
    coarse e = .drivingHighThenShifting ↔ e.upc = 1 ∨ (e.upc = 0 ∧ e.dly = 0) := by
  simp only [coarse, ite_eq_left_iff, reduceCtorEq, imp_false, not_not]

theorem coarse_ne_iff :
    coarse e' ≠ coarse e ↔
      ¬ (coarse e' = .drivingHighThenShifting ↔ coarse e = .drivingHighThenShifting) := by
  cases coarse e <;> cases coarse e' <;> decide

/-- A tick changes the coarse state exactly when it spends a delay or completes a SHIFT. -/
theorem TickMove.coarse_ne_iff (hm : TickMove e e') (hen : e.en = true) (hi : e.Inv p) :
    coarse e' ≠ coarse e ↔ e.dly ≠ 0 ∨ (e.upc = 1 ∧ e.dly = 0 ∧ stalled e = false) := by
  rw [Machine.coarse_ne_iff, coarse_eq_high_iff, coarse_eq_high_iff]
  cases hm with
  | delay hd =>
    have hu : e.upc = 0 := (hi.delay_before_clkh hd).1
    simp [delayTick_of_dly_ne_zero hd, hd, hu]
  | clkh hd hu => simp [hd, hu]
  | shift hd hu hc =>
    have hgo : stalled e = false := by simp [stalled, not_exhausted_iff.2 hc]
    simp [hd, hu, hgo]
  | refill w e₁ hd hu hc ht =>
    have hword : starved e = false := by simp [← Bool.not_eq_true, ← takeWord_eq_none_iff, ht]
    have hgo : stalled e = false := by simp [stalled, hword]
    simp [hd, hu, hgo]
  | stall hd hu hc hs =>
    have hstop : stalled e = true := stalled_iff.2 ⟨hen, hd, hu, hc, hs⟩
    simp [hd, hstop]
  | clkl hd hu => simp [hd, hu]

/-- Settles O31: the tick of an awake engine is one of its moves. -/
theorem coarseStatesAlternate : Obligations.CoarseStatesAlternate :=
  fun _ _ _ hh hen hi h => (tickMove_of_awake hh hen h).coarse_ne_iff hen hi

/-! ### The step runs the decoded instruction -/

/-- R135. -/
theorem step_of_schedule (hs : s.schedule = turn :: turns) : step s = takeTurn turn { s with schedule := turns } := by
  simp only [step, nextTurn, hs]
  rfl

/-- With no turn scheduled a free one is drawn (log 1). -/
theorem step_of_no_schedule (hs : s.schedule = []) :
    step s = takeTurn (Config.turn s.drawn) { s with drawn := s.drawn + 1 } := by
  simp only [step, nextTurn, hs]
  rw [← hs]
  rfl

section
variable (hs : s.script = r :: more) (ha : awaitsStartup r s = false)
  (hi : decode r.source r.bytes = .ok i)
include hs ha hi

/-- The producer's turn is its decoded request, retired unless it is held (R110, R112). -/
theorem produce_of_exec_next (h : exec i s = .next t) :
    produce s = .next (if held r s then t else { t with script := more }) := by
  have hscript : t.script = r :: more := by
    obtain ⟨-, -, -, -, hscript, -⟩ := exec_keepsShared h
    rw [hscript, hs]
  simp [produce, hs, ha, runFetched, hi, h, State.retire, hscript]

theorem produce_of_exec_refused {x : Refusal} (h : exec i s = .refused x) : produce s = .refused x := by
  simp [produce, hs, ha, runFetched, hi, h]

end

/-- Whether the producer waits, and whether its ENQ is held, is not read off the schedule. -/
theorem awaitsStartup_takeOff (r : Request) (turns : List Turn) (n : Nat) :
    awaitsStartup r (s.takeOff turns n) = awaitsStartup r s := by
  cases r <;> rfl

theorem held_takeOff (r : Request) (turns : List Turn) (n : Nat) : held r (s.takeOff turns n) = held r s := by
  cases r <;> simp [held]

/-- Settles O28: the turn is taken off the schedule, then the tick or the producer runs what it fetches. -/
theorem stepRunsTheDecodedInstruction : Obligations.StepRunsTheDecodedInstruction := by
  refine ⟨fun s turn turns => step_of_schedule, fun s => step_of_no_schedule,
    fun s c turns i hsched hh hen hd hi _ => ?_, fun s turns r more i hsched hs ha hi _ => ?_⟩
  · have heng : (s.takeOff turns s.drawn).eng c = s.eng c := takeOff_eng ..
    rw [step_of_schedule hsched]
    exact tick_of_decode (s := s.takeOff turns s.drawn) hh (heng ▸ hen) (heng ▸ hd) (heng ▸ hi)
  · have ha' : awaitsStartup r (s.takeOff turns s.drawn) = false := by rwa [awaitsStartup_takeOff]
    rw [step_of_schedule hsched]
    refine ⟨fun t h => ?_, fun x h => produce_of_exec_refused (s := s.takeOff turns s.drawn) hs ha' hi h⟩
    rw [← held_takeOff r turns s.drawn]
    exact produce_of_exec_next (s := s.takeOff turns s.drawn) hs ha' hi h

end Sys2Proof.Machine
end

section
/-! PROOFS. The two channels are independent (41_serial_clock_engine.md R101), and the tick at which a queue slot is
freed does not show on the pins (R105). -/

namespace Sys2Proof.Machine

variable {c : Channel} {s t u : State} {e e' e₁ : Engine} {w : FramedWord}

/-! ### A turn writes its own channel -/

/-- The converse of `tick_move`: a move of the engine is what its tick does. -/
theorem TickMove.tick (hm : TickMove e e') (hh : s.halted = false) (hen : e.en = true) :
    tick c (s.setEng c e) = .next (s.setEng c e') := by
  cases hm with
  | delay hd => exact tick_delay hh hen hd
  | clkh hd hu => exact tick_clkh hh hen hd hu
  | shift hd hu hc => exact tick_shift hh hen hd hu hc
  | refill w e₁ hd hu hc ht => exact tick_refill hh hen hd hu hc ht
  | stall hd hu hc hs =>
    have heng : (s.setEng c e).eng c = e := eng_setEng_self ..
    exact tick_stall (by simpa using hh) (by rwa [heng]) (by rwa [heng]) (by rwa [heng]) (by rwa [heng]) (by rwa [heng])
  | clkl hd hu => exact tick_clkl hh hen hd hu

theorem setEng_of_eng_eq (h : s.eng c = e) : s.setEng c e = s := by
  rw [← h, setEng_eng]

/-- A tick writes its own channel, and writes the same to it in every state that agrees on the channel and on
`halted`. -/
theorem tick_local (h : tick c s = .next t) :
    ∃ e, t = s.setEng c e ∧
      ∀ s' : State, s'.eng c = s.eng c → s'.halted = s.halted → tick c s' = .next (s'.setEng c e) := by
  rcases tick_move h with ⟨ha, rfl⟩ | ⟨ha, e, hm, rfl⟩
  · refine ⟨t.eng c, by simp, fun s' heng hhalted => ?_⟩
    rw [setEng_of_eng_eq heng]
    exact tick_asleep (by simpa [asleep, heng, hhalted] using ha)
  · obtain ⟨hh, hen⟩ := asleep_eq_false_iff.1 ha
    refine ⟨e, rfl, fun s' heng hhalted => ?_⟩
    have h := hm.tick (c := c) (s := s') (hhalted.trans hh) hen
    rwa [setEng_of_eng_eq heng] at h

theorem sysClk_setEng (h : sysClk c s = .next t) : ∃ e, t = s.setEng c e := by
  rcases sysClk_cases h with ⟨-, rfl⟩ | ⟨-, -, rfl⟩ | ⟨-, -, hk⟩
  · exact ⟨t.eng c, by simp⟩
  · exact ⟨_, rfl⟩
  · obtain ⟨e, rfl, -⟩ := tick_local hk
    exact ⟨e, by simp⟩

theorem earlyPop_setEng (c : Channel) (s : State) : ∃ e, earlyPop c s = s.setEng c e := by
  rcases earlyPop_cases c s with h | ⟨w, rest, -, -, -, -, h⟩ <;> rw [h]
  · exact ⟨s.eng c, by simp⟩
  · exact ⟨_, rfl⟩

/-- START(c), and the halt that a failed startup puts in its place, leave the other channel. -/
theorem startupTurn_start_other (c : Channel) (s : State) :
    (startupTurn (.start c) s).eng c.other = s.eng c.other := by
  rcases startupTurn_cases (.start c) s with ⟨-, h⟩ | ⟨-, -, h⟩ | ⟨-, -, hev, -⟩ | ⟨-, -, hev, -⟩ |
    ⟨d, -, -, hev, -, h⟩ | ⟨d, -, -, hev, -, h⟩
  · rw [h]
  · rw [h, halt_eng]
  · cases hev
  · cases hev
  · rw [h]
  · cases hev
    rw [h, eng_setEng_other]

/-- Settles O34: each of the engine's turns is a write to its channel. -/
theorem turnsLeaveTheOtherChannel : Obligations.TurnsLeaveTheOtherChannel := by
  refine fun s t c => ⟨fun h => ?_, fun h => ?_⟩
  · have hwrite : ∃ e, t = s.setEng c e := by
      rcases h with h | h | h
      · obtain ⟨e, he, -⟩ := tick_local h
        exact ⟨e, he⟩
      · exact sysClk_setEng h
      · cases h
        exact earlyPop_setEng c s
    obtain ⟨e, rfl⟩ := hwrite
    simp
  · cases h
    exact startupTurn_start_other c s

/-! ### A channel depends on itself alone -/

/-- Settles O35: by induction on the ticks, each of which writes the same engine in both runs. -/
theorem channelDependsOnItselfAlone : Obligations.ChannelDependsOnItselfAlone := by
  intro c n
  induction n with
  | zero =>
    rintro s₁ s₂ _ _ heng - ⟨⟩ ⟨⟩
    exact ⟨heng, rfl⟩
  | succ n ih =>
    intro s₁ s₂ t₁ t₂ heng hhalted h₁ h₂
    obtain ⟨a, ha⟩ := tick_next c s₁
    obtain ⟨e, rfl, hlocal⟩ := tick_local ha
    have hb := hlocal s₂ heng.symm hhalted.symm
    rw [ticks_succ ha] at h₁
    rw [ticks_succ hb] at h₂
    obtain ⟨hend, hsampled⟩ := ih _ _ _ _ (by simp) (by simpa using hhalted) h₁ h₂
    exact ⟨hend, by simp [sampled, ha, hb, heng, hsampled]⟩

/-! ### What acts on different channels commutes -/

/-- `f` writes channel `c` only, and what it writes depends on that channel, `halted` and the parameters alone. -/
def ActsOn (c : Channel) (f : State → Host.Outcome State Fault Refusal) : Prop :=
  ∀ s t, f s = .next t → ∃ e, t = s.setEng c e ∧
    ∀ s' : State, s'.eng c = s.eng c → s'.halted = s.halted → s'.cfg = s.cfg → f s' = .next (s'.setEng c e)

theorem actsOn_tick (c : Channel) : ActsOn c (tick c) := by
  intro s t h
  obtain ⟨e, he, hlocal⟩ := tick_local h
  exact ⟨e, he, fun s' heng hhalted _ => hlocal s' heng hhalted⟩

theorem actsOn_enq (c : Channel) (w : FramedWord) : ActsOn c (exec (.enq c w)) := by
  intro s t h
  obtain ⟨hh, hen, ⟨hl, rfl⟩ | ⟨hl, rfl⟩⟩ := execEnq_cases h
  · refine ⟨_, rfl, fun s' heng hhalted hcfg => ?_⟩
    have h := execEnq_push (c := c) (w := w) (hhalted.trans hh) hen (hcfg ▸ hl)
    rw [setEng_of_eng_eq heng] at h
    exact h
  · refine ⟨t.eng c, by simp, fun s' heng hhalted hcfg => ?_⟩
    rw [setEng_of_eng_eq heng]
    rw [← heng] at hen hl
    exact execEnq_hold (hhalted.trans hh) hen (hcfg ▸ hl)

/-- Writes to a channel and to the other one commute. -/
theorem setEng_setEng_other (c : Channel) (s : State) (e e' : Engine) :
    (s.setEng c.other e').setEng c e = (s.setEng c e).setEng c.other e' := by
  cases c <;> rfl

theorem eng_setEng_of_other (c : Channel) (s : State) (e : Engine) : (s.setEng c.other e).eng c = s.eng c := by
  cases c <;> rfl

theorem ActsOn.comm {f g : State → Host.Outcome State Fault Refusal} {a : State} (hf : ActsOn c f)
    (hg : ActsOn c.other g) (h₁ : f s = .next a) (h₂ : g a = .next t) : ∃ b, g s = .next b ∧ f b = .next t := by
  obtain ⟨e, rfl, hfe⟩ := hf s a h₁
  obtain ⟨e', rfl, hge⟩ := hg _ t h₂
  refine ⟨s.setEng c.other e', hge s (by simp) (by simp) (by simp), ?_⟩
  rw [hfe (s.setEng c.other e') (eng_setEng_of_other ..) (by simp) (by simp), setEng_setEng_other]

/-- Settles O36: the two ticks act on the two channels, and so do a tick and the ENQ. -/
theorem ticksOfTheChannelsCommute : Obligations.TicksOfTheChannelsCommute :=
  ⟨fun _ _ _ => (actsOn_tick .kbd).comm (actsOn_tick .mse),
    fun c w _ _ _ => (actsOn_tick c).comm (actsOn_enq c.other w)⟩

/-! ### The early pop -/

/-- The word of `e` is exhausted, and `e'` is `e` with the head of its queue taken aside (R105, log 8). -/
def HeadAside (e e' : Engine) : Prop :=
  e.cnt.val = 11 ∧ e.early = none ∧ ∃ w rest, e.q = w :: rest ∧ e' = { e with q := rest, early := some w }

/-- An early pop changes nothing, or takes the head aside in its window. -/
theorem earlyPop_headAside (c : Channel) (s : State) :
    earlyPop c s = s ∨
    ∃ e, popWindow (s.eng c) = true ∧ HeadAside (s.eng c) e ∧ earlyPop c s = s.setEng c e := by
  rcases earlyPop_cases c s with h | ⟨w, rest, -, hw, hn, hq, h⟩
  · exact .inl h
  · exact .inr ⟨_, hw, ⟨(popWindow_iff.1 hw).2.1, hn, w, rest, hq, rfl⟩, h⟩

theorem earlyPop_of_popWindow {rest : List FramedWord} (ha : asleep c s = false) (hw : popWindow (s.eng c) = true)
    (hn : (s.eng c).early = none) (hq : (s.eng c).q = w :: rest) :
    earlyPop c s = s.setEng c { s.eng c with q := rest, early := some w } := by
  simp [earlyPop, ha, hw, hn, qPop_of_cons hq]

theorem earlyPop_of_not_popWindow (hw : popWindow (s.eng c) = false) : earlyPop c s = s := by
  simp [earlyPop, hw]

namespace HeadAside

theorem en (h : HeadAside e e') : e'.en = e.en := by
  obtain ⟨-, -, w, rest, -, rfl⟩ := h
  rfl

theorem unsent (h : HeadAside e e') : Machine.unsent e' = Machine.unsent e := by
  obtain ⟨-, hn, w, rest, hq, rfl⟩ := h
  exact unsent_earlyPop hn hq

/-- The refill takes the same word from both and leaves the same engine. -/
theorem takeWord (h : HeadAside e e') : Machine.takeWord e' = Machine.takeWord e := by
  obtain ⟨-, hn, w, rest, hq, rfl⟩ := h
  rw [takeWord_of_cons hn hq, takeWord_of_early rfl, hn]

theorem takeWord_ne_none (h : HeadAside e e') : Machine.takeWord e ≠ none := by
  obtain ⟨-, hn, w, rest, hq, -⟩ := h
  simp [takeWord_of_cons hn hq]

theorem pin (h : HeadAside (s.eng c) e) (p : Pin) : pin (s.setEng c e) p = pin s p := by
  obtain ⟨-, -, w, rest, -, rfl⟩ := h
  cases p with
  | ctl => exact setEng_ctl ..
  | clk d => cases c <;> cases d <;> rfl
  | dat d => cases c <;> cases d <;> rfl

theorem exec_shift (h : HeadAside (s.eng c) e) : exec (.shift c) (s.setEng c e) = exec (.shift c) s := by
  obtain ⟨w, e₁, ht⟩ : ∃ w e₁, Machine.takeWord (s.eng c) = some (w, e₁) := by
    simpa [Option.ne_none_iff_exists'] using h.takeWord_ne_none
  have ht' : Machine.takeWord ((s.setEng c e).eng c) = some (w, e₁) := by rw [eng_setEng_self, h.takeWord, ht]
  have hc' : ((s.setEng c e).eng c).cnt.val = 11 := by
    obtain ⟨hc, -, w, rest, -, rfl⟩ := h
    simpa using hc
  rw [exec_shift_refill h.1 ht, exec_shift_refill hc' ht', setEng_setEng]

/-- The same tick brings both to the same engine, when it is the refill, or keeps the head aside. -/
theorem tickMove (h : HeadAside e e') (hm : TickMove e e₁) :
    TickMove e' e₁ ∨ ∃ e₁', TickMove e' e₁' ∧ HeadAside e₁ e₁' := by
  have htake := h.takeWord
  have hword := h.takeWord_ne_none
  obtain ⟨hx, hn, w, rest, hq, rfl⟩ := h
  cases hm with
  | delay hd => exact .inr ⟨_, .delay _ hd, hx, hn, w, rest, hq, rfl⟩
  | clkh hd hu => exact .inr ⟨_, .clkh _ hd hu, hx, hn, w, rest, hq, rfl⟩
  | shift hd hu hc => omega
  | refill w₁ e₂ hd hu hc ht => exact .inl (.refill _ w₁ e₂ hd hu hc (htake.trans ht))
  | stall hd hu hc hs => exact absurd (takeWord_eq_none_iff.2 hs) hword
  | clkl hd hu => exact .inr ⟨_, .clkl _ hd hu, hx, hn, w, rest, hq, rfl⟩

/-- After any number of ticks the runs with and without the head taken aside are in the same state, or in one that
differs in just that. -/
theorem ticks (h : HeadAside (s.eng c) e) (n : Nat) (hs : ticks c n s = .next t)
    (he : ticks c n (s.setEng c e) = .next u) : u = t ∨ ∃ e', HeadAside (t.eng c) e' ∧ u = t.setEng c e' := by
  induction n generalizing s e with
  | zero =>
    cases hs
    cases he
    exact .inr ⟨e, h, rfl⟩
  | succ n ih =>
    obtain ⟨a, ha⟩ := tick_next c s
    rw [ticks_succ ha] at hs
    rcases tick_move ha with ⟨hasleep, rfl⟩ | ⟨hawake, e₁, hm, rfl⟩
    · have hb : tick c (a.setEng c e) = .next (a.setEng c e) :=
        tick_asleep (by simpa [asleep, h.en] using hasleep)
      rw [ticks_succ hb] at he
      exact ih h hs he
    · obtain ⟨hh, hen⟩ := asleep_eq_false_iff.1 hawake
      rcases h.tickMove hm with hm' | ⟨e₁', hm', h'⟩
      · rw [ticks_succ (hm'.tick hh (h.en.trans hen)), hs] at he
        cases he
        exact .inl rfl
      · rw [ticks_succ (hm'.tick hh (h.en.trans hen)), ← setEng_setEng s c e₁ e₁'] at he
        exact ih (by simpa using h') hs he

end HeadAside

/-- Settles O13: the early pop takes the head aside or does nothing, and the run with the head aside follows the one
without it. -/
theorem earlyPopKeepsThePins : Obligations.EarlyPopKeepsThePins := by
  refine fun c s => ⟨fun w rest hh hen hb hc hu hn hq => ?_, fun h => ?_, ?_⟩
  · have hpop := earlyPop_of_popWindow (asleep_eq_false_iff.2 ⟨hh, hen⟩) (popWindow_iff.2 ⟨hb, hc, hu⟩) hn hq
    refine ⟨hpop, fun hl => ?_⟩
    rw [hq, List.length_cons] at hl
    simpa [hpop, full_eq_false_iff] using hl
  · refine earlyPop_of_not_popWindow (Bool.eq_false_iff.2 fun hw => ?_)
    obtain ⟨hb, hc, hu⟩ := popWindow_iff.1 hw
    rcases h with h | h | h
    · simp [hb] at h
    · omega
    · exact hu h
  · rcases earlyPop_headAside c s with h | ⟨e, -, he, h⟩ <;> rw [h]
    · refine ⟨fun _ => rfl, fun _ => rfl, rfl, fun n t u ht hu p => ?_⟩
      rw [ht] at hu
      cases hu
      rfl
    · refine ⟨he.pin, fun d => ?_, he.exec_shift, fun n t u ht hu p => ?_⟩
      · by_cases hdc : d = c
        · subst hdc
          rw [eng_setEng_self, he.unsent]
        · rw [eng_setEng_of_ne _ _ hdc]
      · rcases he.ticks n ht hu with rfl | ⟨e', he', rfl⟩
        · rfl
        · exact he'.pin p

end Sys2Proof.Machine
end

section
/-! PROOFS. The hold of an ENQ ends: the ticks an engine needs until its queue loses the head (20_memory.md R55,
41_serial_clock_engine.md R106, 42_producer_interface.md R112). -/

namespace Sys2Proof.Machine

variable {c : Channel} {s t : State} {e e' : Engine} {w : FramedWord} {rest : List FramedWord} {p : Params}

/-! ### The ticks until the queue loses its head -/

/-- The ticks of the micro-steps from index `k` to the next SHIFT, not counting a delay already pending (R24, R65). -/
def ticksToShift : Fin 3 → Nat
  | 0 => stepTicks 0
  | 1 => 0
  | 2 => stepTicks 2 + stepTicks 0

@[simp] theorem ticksToShift_clkh : ticksToShift 0 = 1 := rfl
@[simp] theorem ticksToShift_shift : ticksToShift 1 = 0 := rfl
@[simp] theorem ticksToShift_clkl : ticksToShift 2 = 3 := rfl

/-- The ticks of the engine before the one whose SHIFT pops the head of the queue, if it holds a word: those to the next
SHIFT, a bit slot for each bit of the current word, and a whole word for an early entry, which goes first (log 8). -/
def ticksToPop (e : Engine) : Nat :=
  e.dly.val + ticksToShift e.upc + 4 * (11 - e.cnt.val) + 44 * e.early.toList.length

/-- The longest way to a SHIFT is from CLKL, since a delay is pending only before CLKH (R32 item 3). -/
theorem Engine.Inv.dly_add_ticksToShift_le (h : e.Inv p) : e.dly.val + ticksToShift e.upc ≤ 3 := by
  by_cases hd : e.dly = 0
  · generalize e.upc = k
    fin_cases k <;> simp [hd]
  · have hdly := e.dly.isLt
    rw [(h.delay_before_clkh hd).1, ticksToShift_clkh]
    omega

/-- Without an early entry at most ten bits are still to be sent. -/
theorem Engine.Inv.ticksToPop_lt_of_early_eq_none (h : e.Inv p) (hn : e.early = none) : ticksToPop e < 44 := by
  have hshift := h.dly_add_ticksToShift_le
  have hcnt := h.cnt_pos
  simp only [ticksToPop, hn, Option.toList_none, List.length_nil]
  omega

/-- An early entry waits only while the current word is exhausted (R105). -/
theorem Engine.Inv.ticksToPop_lt (h : e.Inv p) : ticksToPop e < 48 := by
  cases he : e.early with
  | none => exact (h.ticksToPop_lt_of_early_eq_none he).trans (by decide)
  | some w =>
    have hshift := h.dly_add_ticksToShift_le
    have hcnt : e.cnt.val = 11 := h.early_when_exhausted (by simp [he])
    simp only [ticksToPop, he, hcnt, Option.toList_some, List.length_singleton]
    omega

/-- A tick of an engine whose queue holds a word begins that word, or comes one tick closer to it. -/
theorem TickMove.ticksToPop (hm : TickMove e e') (hq : e.q = w :: rest) :
    (Machine.ticksToPop e = 0 ∧ e'.q = rest ∧ e'.cnt.val = 1 ∧ e'.dat = bitAt w 0) ∨
    (e'.q = w :: rest ∧ Machine.ticksToPop e' + 1 = Machine.ticksToPop e) := by
  cases hm with
  | delay hd =>
    have hone : e.dly = 1 := Fin.eq_one_of_ne_zero _ hd
    refine .inr ⟨hq, ?_⟩
    simp [Machine.ticksToPop, hone]
    omega
  | clkh hd hu =>
    refine .inr ⟨hq, ?_⟩
    simp [Machine.ticksToPop, hd, hu]
    omega
  | shift hd hu hc =>
    refine .inr ⟨hq, ?_⟩
    simp [Machine.ticksToPop, hd, hu, cnt_succ hc]
    omega
  | refill w₁ e₁ hd hu hc ht =>
    rcases takeWord_cases ht with ⟨he, rfl⟩ | ⟨hn, rest₁, hq₁, rfl⟩
    · exact .inr ⟨hq, by simp [Machine.ticksToPop, hd, hu, hc, he]⟩
    · obtain ⟨rfl, rfl⟩ : w₁ = w ∧ rest₁ = rest := by simpa [hq] using hq₁.symm
      exact .inl ⟨by simp [Machine.ticksToPop, hd, hu, hc, hn], rfl, rfl, rfl⟩
  | stall hd hu hc hs => simp [starved_iff, hq] at hs
  | clkl hd hu =>
    refine .inr ⟨hq, ?_⟩
    simp [Machine.ticksToPop, hd, hu]
    omega

/-! ### Of one engine alone -/

/-- Every tick of an awake engine is one of its moves (R91, R100). -/
theorem exists_tickMove (hh : s.halted = false) (hen : e.en = true) :
    ∃ e', TickMove e e' ∧ tick c (s.setEng c e) = .next (s.setEng c e') := by
  obtain ⟨t, ht⟩ := tick_next c (s.setEng c e)
  have hm := tickMove_of_awake (by simpa using hh) (by simpa using hen) ht
  rw [eng_setEng_self] at hm
  exact ⟨_, hm, hm.tick hh hen⟩

/-- After the ticks counted, the next one begins the word at the head. -/
theorem ticks_ticksToPop (hh : s.halted = false) (hen : e.en = true) (hq : e.q = w :: rest) :
    ∃ e', ticks c (ticksToPop e + 1) (s.setEng c e) = .next (s.setEng c e') ∧ e'.q = rest ∧ e'.cnt.val = 1 ∧
      e'.dat = bitAt w 0 := by
  induction hk : ticksToPop e generalizing e with
  | zero =>
    obtain ⟨e₁, hm, ht⟩ := exists_tickMove (c := c) hh hen
    rcases hm.ticksToPop hq with ⟨-, hpop⟩ | ⟨-, hcloser⟩
    · exact ⟨e₁, by rw [ticks_succ ht]; rfl, hpop⟩
    · omega
  | succ k ih =>
    obtain ⟨e₁, hm, ht⟩ := exists_tickMove (c := c) hh hen
    rcases hm.ticksToPop hq with ⟨hzero, -⟩ | ⟨hq₁, hcloser⟩
    · omega
    · rw [ticks_succ ht]
      exact ih (hm.en.trans hen) hq₁ (by omega)

/-! ### In the whole machine -/

/-- Whatever the turn, a started channel whose queue holds a word pops one, or is no farther from its pop. -/
theorem ChannelMove.ticksToPop_le {turn : Turn} (hm : ChannelMove turn s c e) (hen : (s.eng c).en = true)
    (hq : (s.eng c).q ≠ []) :
    e.q.length < (s.eng c).q.length ∨ (e.q ≠ [] ∧ ticksToPop e ≤ ticksToPop (s.eng c)) := by
  obtain ⟨w, rest, hcons⟩ := List.exists_cons_of_ne_nil hq
  cases hm with
  | same => exact .inr ⟨hq, le_rfl⟩
  | start hh ho he => simp [hen] at he
  | tick p e hp ha hm =>
    rcases hm.ticksToPop hcons with ⟨-, hpop, -⟩ | ⟨hkeep, hcloser⟩
    · exact .inl (by simp [hpop, hcons])
    · exact .inr ⟨by simp [hkeep], Nat.le_of_succ_le hcloser.le⟩
  | count ha hp => exact .inr ⟨hq, le_rfl⟩
  | early w₁ rest₁ ha hw hn hq₁ => exact .inl (by simp [hq₁])
  | enqueued w₁ more ht hs ha hl => exact .inr ⟨by simp, le_rfl⟩

/-- And a step that is a tick of its engine brings it one tick closer. -/
theorem step_ticksToPop (h : step s = .next t) (hen : (s.eng c).en = true) (hq : (s.eng c).q ≠ []) :
    (t.eng c).q.length < (s.eng c).q.length ∨
    ((t.eng c).q ≠ [] ∧
      ticksToPop (t.eng c) + (if tickIsNext c s then 1 else 0) ≤ ticksToPop (s.eng c)) := by
  split
  next hn =>
    obtain ⟨p, -, hm⟩ := tickIsNext_move h hn
    obtain ⟨w, rest, hcons⟩ := List.exists_cons_of_ne_nil hq
    rcases hm.ticksToPop hcons with ⟨-, hpop, -⟩ | ⟨hkeep, hcloser⟩
    · exact .inl (by simp [hpop, hcons])
    · exact .inr ⟨by simp [hkeep], hcloser.le⟩
  next =>
    obtain ⟨turns, n, hm⟩ := step_channel h c
    simpa using hm.ticksToPop_le (by simpa using hen) (by simpa using hq)

/-- A run that ticks an engine more often than its queue needs to lose a word shortens the queue. -/
theorem drainedIn_pos_of_ticksToPop_lt (n : Nat) (hen : (s.eng c).en = true) (hq : (s.eng c).q ≠ [])
    (hlt : ticksToPop (s.eng c) < ticksIn c n s) : 0 < drainedIn c n s := by
  induction n generalizing s with
  | zero => simp [ticksIn] at hlt
  | succ n ih =>
    simp only [ticksIn, drainedIn] at hlt ⊢
    cases h : step s with
    | next t =>
      simp only [h] at hlt ⊢
      rcases step_ticksToPop h hen hq with hpop | ⟨hq', hcloser⟩
      · simp [hpop]
      · have hen' : (t.eng c).en = true := (nothingIsTakenBack s t h).1 c hen
        have hrest := ih hen' hq' (by omega)
        omega
    | fault r => simp [h] at hlt
    | refused r => simp [h] at hlt

/-- Settles O49: the ticks to the pop are fewer than 44 without an early entry and fewer than 48 with one, and every tick
takes one off. -/
theorem headBeginsWithin44Ticks : Obligations.HeadBeginsWithin44Ticks := by
  refine ⟨fun c s w rest hh hen hi hn hq => ?_, fun c s n hs hen hq hticks => ?_⟩
  · obtain ⟨e, ht, hpop⟩ := ticks_ticksToPop (c := c) hh hen hq
    rw [setEng_eng] at ht
    exact ⟨_, _, hi.ticksToPop_lt_of_early_eq_none hn, ht, by simpa using hpop⟩
  · exact drainedIn_pos_of_ticksToPop_lt n hen hq ((hs.started_ok c hen).ticksToPop_lt.trans_le hticks)

end Sys2Proof.Machine
end

section
/-! PROOFS. The producer's interface (42_producer_interface.md R111 to R116): what ENQ answers, the handshake at its ports,
and the producer's turn. -/

namespace Sys2Proof.Machine

variable {c : Channel} {s t : State} {w : FramedWord} {code : RawCode} {turns : List Turn} {more : List Request}

/-! ### ENQ: a push, a hold, a refusal -/

/-- R111, of ENQ as the producer's turn runs it. -/
theorem exec_enq_push (hh : s.halted = false) (hen : (s.eng c).en = true) (hl : (s.eng c).q.length < s.cfg.qDepth) :
    exec (.enq c w) s = .next (s.setEng c { s.eng c with q := (s.eng c).q ++ [w] }) := by
  have h := execEnq_push (c := c) (w := w) hh hen hl
  rwa [setEng_eng] at h

theorem exec_enq_hold (hh : s.halted = false) (hen : (s.eng c).en = true) (hf : full s.cfg.qDepth (s.eng c) = true) :
    exec (.enq c w) s = .next s :=
  execEnq_hold hh hen (full_eq_true_iff.1 hf)

theorem exec_enq_halted (hh : s.halted = true) : exec (.enq c w) s = .refused (.enqHalted c) := by
  simp [exec, execEnq, hh]

theorem exec_enq_not_started (hh : s.halted = false) (hen : (s.eng c).en = false) :
    exec (.enq c w) s = .refused (.enqNotStarted c) := by
  simp [exec, execEnq, hh, hen]

/-- Settles O16: the push is a write to channel `c` that leaves its queue with the word in it. -/
theorem enqCompletes : Obligations.EnqCompletes := by
  intro c w s hh hen hl
  have hpush := exec_enq_push (w := w) hh hen hl
  refine ⟨hpush, fun t h => ?_⟩
  rw [hpush] at h
  cases h
  simp [empty]

/-- Settles O17: a full queue has no room for the push. -/
theorem enqHoldsWhileFull : Obligations.EnqHoldsWhileFull := fun _ _ _ => exec_enq_hold

/-- Settles O18: on a started channel of a machine that runs, ENQ pushes or holds. -/
theorem enqRefusedUnlessStarted : Obligations.EnqRefusedUnlessStarted := by
  refine fun c w s => ⟨exec_enq_halted, exec_enq_not_started, fun hh hen => ?_⟩
  cases hf : full s.cfg.qDepth (s.eng c) with
  | true => exact ⟨_, exec_enq_hold hh hen hf⟩
  | false => exact ⟨_, exec_enq_push hh hen (full_eq_false_iff.1 hf)⟩

/-! ### An ENQ on a quiescent channel -/

theorem quiescent_iff {e : Engine} :
    quiescent e = true ↔ e.en = true ∧ e.upc = 1 ∧ e.dly = 0 ∧ e.cnt = 11 ∧ e.q = [] ∧ e.early = none := by
  simp [quiescent, and_assoc]

theorem falls_of_clk {e e' : Engine} (he : e.clk = 1#1) (he' : e'.clk = 0#1) : falls e e' = true := by
  simp [falls, he, he']

theorem falls_eq_false_of_clk_high {e e' : Engine} (he' : e'.clk = 1#1) : falls e e' = false := by
  simp [falls, he']

/-- Settles O45: the push, the refill that begins the pushed word, and CLKL; the clock of an engine at SHIFT rests high
(R32 item 4). -/
theorem enqLiftsTheStall : Obligations.EnqLiftsTheStall := by
  intro c w s hh hs hi hdepth
  obtain ⟨hen, hu, hd, hc, hq, hn⟩ := quiescent_iff.1 hs
  have hclk : (s.eng c).clk = 1#1 := hi.high_before_shift (by simp [hu])
  have hpush := exec_enq_push (c := c) (w := w) hh hen (by rw [hq]; exact hdepth)
  rw [hq, List.nil_append] at hpush
  have hrefill := tick_refill (c := c) (s := s) (e := { s.eng c with q := [w] }) hh hen hd hu (by simp [hc])
    (takeWord_of_cons hn rfl)
  have hclkl := tick_clkl (c := c) (s := s) (e := shiftOut (loadWord w { s.eng c with q := [] })) hh hen hd rfl
  refine ⟨_, _, _, hpush, hrefill, hclkl, falls_eq_false_of_clk_high ?_, falls_eq_false_of_clk_high ?_, ?_, ?_, ?_,
    falls_of_clk ?_ ?_, ?_, ?_⟩ <;> simp [hclk]

/-! ### The ports -/

theorem producing_iff : producing s = true ↔ s.halted = false ∧ startupDone s = true := by
  simp [producing]

theorem en_of_startupDone (hs : startupDone s = true) (c : Channel) : (s.eng c).en = true := by
  simp only [startupDone, Bool.and_eq_true] at hs
  obtain ⟨⟨hkbd, hmse⟩, -⟩ := hs
  cases c
  exacts [hkbd, hmse]

/-- The producer presents a word on channel `c` when it has begun and its request in progress is an ENQ there. -/
theorem enqDataI_eq_some_iff :
    enqDataI s c = some w ↔ producing s = true ∧ ∃ more, s.script = .word c w :: more := by
  unfold enqDataI
  split
  next d v more hs => simp [hs, and_assoc]
  next hs =>
    simp only [reduceCtorEq, false_iff, not_and, not_exists]
    exact fun _ more h => hs c w more h

theorem enqValidI_iff : enqValidI s c = true ↔ ∃ w, enqDataI s c = some w := Option.isSome_iff_exists

/-- No word is presented before the startup is complete (R143, log 13). -/
theorem enqValidI_of_not_startupDone (hs : startupDone s = false) (c : Channel) : enqValidI s c = false := by
  refine Bool.eq_false_iff.2 fun hv => ?_
  obtain ⟨w, hw⟩ := enqValidI_iff.1 hv
  have hdone := (producing_iff.1 (enqDataI_eq_some_iff.1 hw).1).2
  simp [hs] at hdone

theorem enqReadyO_iff :
    enqReadyO s c = true ↔ (s.eng c).en = true ∧ (s.eng c).q.length < s.cfg.qDepth := by
  simp [enqReadyO, full_eq_false_iff]

/-- On a started channel ready is 0 exactly when the queue is full. -/
theorem enqReadyO_eq_false_iff (hen : (s.eng c).en = true) :
    enqReadyO s c = false ↔ full s.cfg.qDepth (s.eng c) = true := by
  simp [enqReadyO, hen]

/-- An ENQ completes exactly when its channel is ready (R115). -/
theorem enqReadyO_iff_exec_enq (hh : s.halted = false) :
    enqReadyO s c = true ↔ ∃ t, exec (.enq c w) s = .next t ∧ (t.eng c).q = (s.eng c).q ++ [w] := by
  rw [enqReadyO_iff]
  constructor
  · rintro ⟨hen, hl⟩
    exact ⟨_, exec_enq_push hh hen hl, by simp⟩
  · rintro ⟨t, h, hq⟩
    obtain ⟨-, hen, ⟨hl, -⟩ | ⟨-, rfl⟩⟩ := execEnq_cases h
    · exact ⟨hen, hl⟩
    · simp at hq

/-! ### The producer's turn -/

theorem setEng_takeOff (s : State) (c : Channel) (e : Engine) (turns : List Turn) (n : Nat) :
    (s.takeOff turns n).setEng c e = (s.setEng c e).takeOff turns n := by
  cases c <;> rfl

/-- The schedule and the script are no part of a channel. -/
theorem eng_with_schedule_script (s : State) (turns : List Turn) (more : List Request) (c : Channel) :
    ({ s with schedule := turns, script := more } : State).eng c = s.eng c := by
  cases c <;> rfl

theorem awaitsStartup_of_producing (hp : producing s = true) (r : Request) : awaitsStartup r s = false := by
  cases r with
  | code code => simp [awaitsStartup, hp]
  | word c w => simp [awaitsStartup, (producing_iff.1 hp).2]

/-- The producer's turn after the startup, at a request that decodes to an instruction with a next state. -/
theorem step_of_exec_next {r : Request} {i : Instr} (hp : producing s = true) (hsched : s.schedule = .produce :: turns)
    (hscript : s.script = r :: more) (hi : decode r.source r.bytes = .ok i)
    (h : exec i (s.takeOff turns s.drawn) = .next t) :
    step s = .next (if held r s then t else { t with script := more }) := by
  have ha : awaitsStartup r (s.takeOff turns s.drawn) = false := awaitsStartup_of_producing hp r
  rw [step_of_schedule hsched, ← held_takeOff r turns s.drawn]
  exact produce_of_exec_next (s := s.takeOff turns s.drawn) hscript ha hi h

/-- FRAME is done in one turn. -/
theorem step_frame (hp : producing s = true) (hsched : s.schedule = .produce :: turns)
    (hscript : s.script = .code code :: more) :
    step s = .next
      { s with codeI := code, diag := s.diag ++ [.info code, .debug (frame code)], script := more, schedule := turns } :=
  step_of_exec_next hp hsched hscript (decode_codePort code) (exec_frame code _)

section
variable (hp : producing s = true) (hsched : s.schedule = .produce :: turns) (hscript : s.script = .word c w :: more)
include hp hsched hscript

/-- R112: a held ENQ takes its turn, and nothing else. -/
theorem step_enq_held (hf : full s.cfg.qDepth (s.eng c) = true) : step s = .next { s with schedule := turns } := by
  obtain ⟨hh, hdone⟩ := producing_iff.1 hp
  have hx : exec (.enq c w) (s.takeOff turns s.drawn) = .next (s.takeOff turns s.drawn) :=
    exec_enq_hold hh (en_of_startupDone hdone c) (by simpa using hf)
  rw [step_of_exec_next hp hsched hscript (decode_bytes_of_word c w) hx]
  simp [held, hf, State.takeOff]

/-- R111: with room the word goes to the tail, and the producer goes on. -/
theorem step_enq_push (hf : full s.cfg.qDepth (s.eng c) = false) :
    step s = .next
      { s.setEng c { s.eng c with q := (s.eng c).q ++ [w] } with schedule := turns, script := more } := by
  obtain ⟨hh, hdone⟩ := producing_iff.1 hp
  have hx : exec (.enq c w) (s.takeOff turns s.drawn) =
      .next ((s.setEng c { s.eng c with q := (s.eng c).q ++ [w] }).takeOff turns s.drawn) := by
    rw [← setEng_takeOff, ← takeOff_eng s c turns s.drawn]
    exact exec_enq_push hh (by simpa using en_of_startupDone hdone c) (by simpa using full_eq_false_iff.1 hf)
  rw [step_of_exec_next hp hsched hscript (decode_bytes_of_word c w) hx]
  simp [held, hf, State.takeOff]

/-- What the ENQ turn answers, by `full`: the channel pushed or as it was, and the request retired or in progress. -/
theorem step_enq :
    ∃ t, step s = .next t ∧ t.diag = s.diag ∧ t.eng c.other = s.eng c.other ∧
      (full s.cfg.qDepth (s.eng c) = false →
        t.eng c = { s.eng c with q := (s.eng c).q ++ [w] } ∧ t.script = more) ∧
      (full s.cfg.qDepth (s.eng c) = true → t.eng c = s.eng c ∧ t.script = .word c w :: more) := by
  cases hf : full s.cfg.qDepth (s.eng c) with
  | true =>
    refine ⟨_, step_enq_held hp hsched hscript hf, rfl, takeOff_eng s c.other turns s.drawn, nofun, fun _ => ?_⟩
    exact ⟨takeOff_eng s c turns s.drawn, hscript⟩
  | false =>
    refine ⟨_, step_enq_push hp hsched hscript hf, setEng_diag .., ?_, fun _ => ⟨?_, rfl⟩, nofun⟩
    · rw [eng_with_schedule_script, eng_setEng_other]
    · rw [eng_with_schedule_script, eng_setEng_self]

end

theorem awaitsStartup_of_not_startupDone (hh : s.halted = false) (hdone : startupDone s = false) (r : Request) :
    awaitsStartup r s = true := by
  cases r <;> simp [awaitsStartup, producing, hh, hdone]

theorem produce_of_awaitsStartup (ha : ∀ r, awaitsStartup r s = true) : produce s = .next s := by
  cases hs : s.script <;> simp [produce, hs, ha]

/-- R143, R155: before the startup is complete no request makes a step. -/
theorem step_produce_of_not_startupDone (hh : s.halted = false) (hdone : startupDone s = false)
    (hsched : s.schedule = .produce :: turns) : step s = .next { s with schedule := turns } := by
  rw [step_of_schedule hsched]
  refine produce_of_awaitsStartup (s := s.takeOff turns s.drawn) fun r => ?_
  rw [awaitsStartup_takeOff, awaitsStartup_of_not_startupDone hh hdone]

/-- Settles O24: the producer's turn at an ENQ by `full`, and before the startup at any request. -/
theorem blockedProducerWaits : Obligations.BlockedProducerWaits :=
  ⟨fun _ _ _ _ _ hh hdone hsched hscript =>
      have hp := producing_iff.2 ⟨hh, hdone⟩
      ⟨step_enq_held hp hsched hscript, step_enq_push hp hsched hscript⟩,
    fun _ _ hh hdone hsched =>
      ⟨step_produce_of_not_startupDone hh hdone hsched, enqValidI_of_not_startupDone hdone⟩⟩

/-- Settles O19: a presented word is the request in progress, and its turn pushes or is held as ready tells. -/
theorem enqReadyTellsCompletion : Obligations.EnqReadyTellsCompletion := by
  refine ⟨fun c w s hh => enqReadyO_iff_exec_enq hh, fun c w s hw => ?_⟩
  obtain ⟨hp, more, hscript⟩ := enqDataI_eq_some_iff.1 hw
  obtain ⟨hh, hdone⟩ := producing_iff.1 hp
  refine ⟨enqValidI_iff.2 ⟨w, hw⟩, hh, hdone, fun turns hsched => ⟨fun hready => ?_, fun hready => ?_⟩⟩
  · have hf := full_eq_false_iff.2 (enqReadyO_iff.1 hready).2
    refine ⟨_, step_enq_push hp hsched hscript hf, ?_, by rw [hscript, List.tail_cons]⟩
    rw [eng_with_schedule_script, eng_setEng_self]
  · have hf := (enqReadyO_eq_false_iff (en_of_startupDone hdone c)).1 hready
    exact ⟨_, step_enq_held hp hsched hscript hf, takeOff_eng s c turns s.drawn,
      enqDataI_eq_some_iff.2 ⟨hp, more, hscript⟩⟩

/-- Settles O25: the FRAME turn leaves the channels and the ENQ of its word in progress, and the ENQ turn pushes or is
held. -/
theorem sendFramesThenEnqueues : Obligations.SendFramesThenEnqueues := by
  intro c code s turns more hh hdone hsched hscript
  have hp := producing_iff.2 ⟨hh, hdone⟩
  obtain ⟨a, ha, hframe⟩ : ∃ a, a = { s with
      codeI := code, diag := s.diag ++ [.info code, .debug (frame code)], script := .word c (frame code) :: more,
      schedule := .produce :: turns } ∧ step s = .next a :=
    ⟨_, rfl, step_frame hp hsched hscript⟩
  have heng (d : Channel) : a.eng d = s.eng d := by subst ha; cases d <;> rfl
  have hcfg : a.cfg = s.cfg := by rw [ha]
  obtain ⟨b, henq, hdiag, hother, hroom, hfull⟩ :=
    step_enq (s := a) (turns := turns) (by rw [ha]; exact hp) (by rw [ha]) (by rw [ha])
  rw [heng, hcfg] at hroom hfull
  exact ⟨a, b, hframe, henq, by rw [ha], hdiag, heng, hother.trans (heng c.other), hroom, hfull⟩

end Sys2Proof.Machine
end

section
/-! PROOFS. What an observer of the pins sees (43_wire_protocol.md R120 to R129): the steps in which a pin changes, one bit
slot tick by tick, and a whole queue on the wire. -/

namespace Sys2Proof.Machine

variable {c : Channel} {s t u : State} {e e' e₁ : Engine} {w : FramedWord} {rest : List FramedWord} {turn : Turn}
  {bits more : List Bit} {k : Nat}

/-! ### The steps in which a pin changes -/

/-- A tick moves the clock pin in CLKH, up, and in CLKL, down. -/
theorem TickMove.clk_of_ne (hm : TickMove e e') (hne : e'.clk ≠ e.clk) :
    e.dly = 0 ∧ ((e.upc = 0 ∧ e'.clk = 1#1) ∨ (e.upc = 2 ∧ e'.clk = 0#1)) := by
  cases hm with
  | clkh hd hu => exact ⟨hd, .inl ⟨hu, rfl⟩⟩
  | clkl hd hu => exact ⟨hd, .inr ⟨hu, rfl⟩⟩
  | refill w e₁ hd hu hc ht =>
    obtain ⟨-, -, -, -, -, hclk, -⟩ := takeWord_frame ht
    exact absurd hclk hne
  | _ => exact absurd rfl hne

/-- A tick moves the data pin in a SHIFT that completes. -/
theorem TickMove.upc_of_dat_ne (hm : TickMove e e') (hne : e'.dat ≠ e.dat) :
    e.dly = 0 ∧ e.upc = 1 ∧ e'.upc = 2 := by
  cases hm with
  | shift hd hu hc => exact ⟨hd, hu, rfl⟩
  | refill w e₁ hd hu hc ht => exact ⟨hd, hu, rfl⟩
  | _ => exact absurd rfl hne

/-- The two pins of a channel are moved by its engine's ticks alone; START(c) leaves them as they are (R153). -/
theorem ChannelMove.tick_of_pin_ne (hm : ChannelMove turn s c e)
    (hne : e.clk ≠ (s.eng c).clk ∨ e.dat ≠ (s.eng c).dat) :
    s.halted = false ∧ (s.eng c).en = true ∧ ∃ p, TickMove { s.eng c with phase := p } e := by
  cases hm with
  | tick p e hp ha hm =>
    obtain ⟨hh, hen⟩ := asleep_eq_false_iff.1 ha
    exact ⟨hh, hen, p, hm⟩
  | _ => simp at hne

/-- The control line is moved by CTLHIGH alone, up. -/
theorem TurnMove.raise_of_ctl_ne (hm : TurnMove turn s t) (hne : t.ctl ≠ s.ctl) :
    t.ctl = 1#1 ∧ turn = .startup .ctlHigh := by
  cases hm with
  | raise ht hh ho hd => exact ⟨rfl, ht⟩
  | _ => simp at hne

theorem step_tick_of_pin_ne (h : step s = .next t)
    (hne : (t.eng c).clk ≠ (s.eng c).clk ∨ (t.eng c).dat ≠ (s.eng c).dat) :
    s.halted = false ∧ (s.eng c).en = true ∧ ∃ p, TickMove { s.eng c with phase := p } (t.eng c) := by
  obtain ⟨turns, n, hm⟩ := step_channel h c
  simpa using hm.tick_of_pin_ne (by simpa using hne)

/-- Settles O32: a step that moves a channel's pin is a tick of its engine, and one that moves the control line is
CTLHIGH. -/
theorem pinsChangeOnlyInTheirSteps : Obligations.PinsChangeOnlyInTheirSteps := by
  refine fun s t h => ⟨fun c hne => ?_, fun c hne => ?_, fun hne => ?_⟩
  · obtain ⟨hh, hen, p, hm⟩ := step_tick_of_pin_ne h (.inl hne)
    exact ⟨hh, hen, hm.clk_of_ne hne⟩
  · obtain ⟨hh, hen, p, hm⟩ := step_tick_of_pin_ne h (.inr hne)
    exact ⟨hh, hen, hm.upc_of_dat_ne hne⟩
  · obtain ⟨turns, n, -, hm⟩ := step_move h
    exact hm.raise_of_ctl_ne hne

/-! ### One bit slot -/

/-- The delay tick that CLKL arms leaves the engine at CLKH (R96, R97). -/
theorem tick_delay_of_clkl (hh : s.halted = false) (hen : e.en = true) (hd : e.dly = 0) :
    tick c (s.setEng c { e with clk := 0#1, dly := 1, upc := 0 }) =
      .next (s.setEng c { e with clk := 0#1, upc := 0 }) := by
  rw [tick_delay (e := { e with clk := 0#1, dly := 1, upc := 0 }) hh hen Fin.zero_ne_one.symm, hd]
  rfl

/-- R129: the four ticks from CLKH, around whatever the SHIFT makes of the channel. -/
theorem bitSlot_of_shift (hh : s.halted = false) (hen : (s.eng c).en = true) (hu : (s.eng c).upc = 0)
    (hd : (s.eng c).dly = 0)
    (hshift : tick c (s.setEng c { s.eng c with clk := 1#1, upc := 1 }) = .next (s.setEng c e₁))
    (hen₁ : e₁.en = true) (hu₁ : e₁.upc = 2) (hd₁ : e₁.dly = 0) (hclk₁ : e₁.clk = 1#1) :
    ∃ s₁ s₂ s₃ s₄,
      tick c s = .next s₁ ∧ tick c s₁ = .next s₂ ∧ tick c s₂ = .next s₃ ∧ tick c s₃ = .next s₄ ∧
      (s₁.eng c).clk = 1#1 ∧ (s₁.eng c).dat = (s.eng c).dat ∧
      (s₂.eng c).clk = 1#1 ∧ (s₂.eng c).dat = e₁.dat ∧
      (s₃.eng c).clk = 0#1 ∧ (s₃.eng c).dat = e₁.dat ∧
      s₄ = s.setEng c { e₁ with clk := 0#1, upc := 0 } := by
  have hclkh := tick_clkh (c := c) hh hen hd hu
  rw [setEng_eng] at hclkh
  refine ⟨_, _, _, _, hclkh, hshift, tick_clkl hh hen₁ hd₁ hu₁, tick_delay_of_clkl hh hen₁ hd₁, ?_⟩
  simp [hclk₁]

/-- The word a refill takes, from the queue or from an early pop (log 8), and what it leaves. -/
theorem takeWord_of_queue_or_early
    (h : (e.early = none ∧ e.q = w :: rest) ∨ (e.early = some w ∧ e.q = rest)) :
    takeWord e = some (w, { e with q := rest, early := none }) := by
  rcases h with ⟨hn, hq⟩ | ⟨he, rfl⟩
  · rw [takeWord_of_cons hn hq, ← hn]
  · exact takeWord_of_early he

/-- Settles O46: the two forms of a SHIFT that does not stall, each in its bit slot. -/
theorem oneBitSlot : Obligations.OneBitSlot := by
  refine ⟨fun c s hh hen hu hd hc => ?_, fun c s w rest hh hen hu hd hc hw => ?_⟩
  · have hshift := tick_shift (c := c) (s := s) (e := { s.eng c with clk := 1#1, upc := 1 }) hh hen hd rfl hc
    have hslot := bitSlot_of_shift hh hen hu hd hshift hen rfl hd rfl
    rwa [shiftOut, ← hu] at hslot
  · have hshift := tick_refill (c := c) (s := s) (e := { s.eng c with clk := 1#1, upc := 1 }) hh hen hd rfl hc
      (takeWord_of_queue_or_early hw)
    have hslot := bitSlot_of_shift hh hen hu hd hshift hen rfl hd rfl
    rwa [shiftOut, loadWord, ← hu] at hslot

/-! ### Bits on the wire -/

theorem sampled_add {m : Nat} (n : Nat) (h : ticks c m s = .next t) :
    sampled c (m + n) s = sampled c m s ++ sampled c n t := by
  induction m generalizing s with
  | zero => cases h; simp [sampled]
  | succ m ih =>
    obtain ⟨s₁, h₁⟩ := tick_next c s
    rw [ticks_succ h₁] at h
    rw [Nat.add_right_comm]
    simp [sampled, h₁, ih h]

theorem risingEdges_add {m : Nat} (n : Nat) (h : ticks c m s = .next t) :
    risingEdges c (m + n) s = risingEdges c m s + risingEdges c n t := by
  induction m generalizing s with
  | zero => cases h; simp [risingEdges]
  | succ m ih =>
    obtain ⟨s₁, h₁⟩ := tick_next c s
    rw [ticks_succ h₁] at h
    rw [Nat.add_right_comm]
    simp [risingEdges, h₁, ih h, Nat.add_assoc]

/-- In the ticks from `s` to `t` the channel sends `bits`: four ticks and one edge of each kind for every bit, with the bit
on the data pin at its falling edge (R122, R123). -/
structure Sends (c : Channel) (s : State) (bits : List Bit) (t : State) : Prop where
  ticks_eq : ticks c (4 * bits.length) s = .next t
  sampled_eq : sampled c (4 * bits.length) s = bits
  risingEdges_eq : risingEdges c (4 * bits.length) s = bits.length

theorem Sends.refl (c : Channel) (s : State) : Sends c s [] s := ⟨rfl, rfl, rfl⟩

theorem Sends.trans (h : Sends c s bits t) (h' : Sends c t more u) : Sends c s (bits ++ more) u := by
  have hlen : 4 * (bits ++ more).length = 4 * bits.length + 4 * more.length := by
    rw [List.length_append, Nat.mul_add]
  constructor <;> rw [hlen]
  · rw [ticks_add _ h.ticks_eq, h'.ticks_eq]
  · rw [sampled_add _ h.ticks_eq, h.sampled_eq, h'.sampled_eq]
  · rw [risingEdges_add _ h.ticks_eq, h.risingEdges_eq, h'.risingEdges_eq, List.length_append]

/-- The slot from SHIFT to SHIFT: the bit the SHIFT has put on the data pin is there when the clock falls, and the clock is
high again at the end (R129). -/
theorem sends_of_shift (hh : s.halted = false) (hclk : e.clk = 1#1)
    (hshift : tick c (s.setEng c e) = .next (s.setEng c e₁))
    (hen₁ : e₁.en = true) (hu₁ : e₁.upc = 2) (hd₁ : e₁.dly = 0) (hclk₁ : e₁.clk = 1#1) :
    Sends c (s.setEng c e) [e₁.dat] (s.setEng c { e₁ with upc := 1 }) := by
  have hclkl := tick_clkl (c := c) (s := s) hh hen₁ hd₁ hu₁
  have hdelay := tick_delay_of_clkl (c := c) (s := s) hh hen₁ hd₁
  have hclkh : tick c (s.setEng c { e₁ with clk := 0#1, upc := 0 }) = .next (s.setEng c { e₁ with upc := 1 }) := by
    rw [tick_clkh (e := { e₁ with clk := 0#1, upc := 0 }) hh hen₁ hd₁ rfl, ← hclk₁]
  constructor
  · simp [ticks, hshift, hclkl, hdelay, hclkh]
  · simp [sampled, falls, hshift, hclkl, hdelay, hclkh, hclk, hclk₁]
  · simp [risingEdges, rises, hshift, hclkl, hdelay, hclkh, hclk, hclk₁]

/-! ### A word and a queue on the wire -/

/-- The engine is about to run the SHIFT that takes the next word from its queue, or to stall there (R94, R95). -/
structure AwaitsWord (e : Engine) : Prop where
  en : e.en = true
  upc : e.upc = 1
  dly : e.dly = 0
  clk : e.clk = 1#1
  cnt : e.cnt.val = 11
  early : e.early = none

/-- The channel back at SHIFT after `k` bit slots of the word `w`. -/
def afterSlots (w : FramedWord) (rest : List FramedWord) (k : Nat) (e : Engine) : Engine :=
  { afterShift w rest k e with upc := 1 }

theorem afterSlots_cnt_val (hk : k ≤ 11) : (afterSlots w rest k e).cnt.val = k := Nat.mod_eq_of_lt (by omega)

theorem AwaitsWord.afterSlots (h : AwaitsWord e) (w : FramedWord) (rest : List FramedWord) :
    AwaitsWord (afterSlots w rest 11 e) := ⟨h.en, rfl, h.dly, h.clk, rfl, h.early⟩

/-- The bits of the word at the head go out one a slot, bit 0 first (R93, R94). -/
theorem sends_bits_of_word (hh : s.halted = false) (he : AwaitsWord e) (hq : e.q = w :: rest) (hk : k + 1 ≤ 11) :
    Sends c (s.setEng c e) ((List.range (k + 1)).map (bitAt w)) (s.setEng c (afterSlots w rest (k + 1) e)) := by
  induction k with
  | zero =>
    exact sends_of_shift hh he.clk
      (tick_refill hh he.en he.dly he.upc he.cnt (takeWord_of_cons he.early hq)) he.en rfl he.dly he.clk
  | succ k ih =>
    have hnext : shiftOut (afterSlots w rest (k + 1) e) = afterShift w rest (k + 1 + 1) e := by
      rw [← shiftOut_afterShift w rest (k + 1) he.clk, ← he.clk]
      rfl
    have hcnt : (afterSlots w rest (k + 1) e).cnt.val < 11 := by
      rw [afterSlots_cnt_val (by omega)]
      omega
    have hshift := tick_shift (c := c) (e := afterSlots w rest (k + 1) e) hh he.en he.dly rfl hcnt
    rw [hnext] at hshift
    have hslot := sends_of_shift (e := afterSlots w rest (k + 1) e) (e₁ := afterShift w rest (k + 1 + 1) e) hh he.clk
      hshift he.en rfl he.dly he.clk
    rw [List.range_succ, List.map_append]
    exact (ih (by omega)).trans hslot

theorem sends_word (hh : s.halted = false) (he : AwaitsWord e) (hq : e.q = w :: rest) :
    Sends c (s.setEng c e) (wordBits w) (s.setEng c (afterSlots w rest 11 e)) :=
  sends_bits_of_word hh he hq le_rfl

/-- The words of a queue go out back to back; only the last one shows in the state they leave (R126). -/
theorem sends_queue (hh : s.halted = false) (he : AwaitsWord e) (hq : e.q = w :: rest) :
    Sends c (s.setEng c e) ((w :: rest).flatMap wordBits)
      (s.setEng c (afterSlots ((w :: rest).getLast (List.cons_ne_nil w rest)) [] 11 e)) := by
  induction rest generalizing w e with
  | nil => simpa using sends_word hh he hq
  | cons v rest ih =>
    rw [List.flatMap_cons, List.getLast_cons_cons]
    exact (sends_word hh he hq).trans (ih (he.afterSlots w (v :: rest)) rfl)

theorem length_flatMap_wordBits (q : List FramedWord) : (q.flatMap wordBits).length = 11 * q.length := by
  simp [List.length_flatMap, wordBits_eq, Nat.mul_comm]

theorem AwaitsWord.quiescent (h : AwaitsWord e) (hq : e.q = []) : quiescent e = true :=
  quiescent_iff.2 ⟨h.en, h.upc, h.dly, Fin.ext h.cnt, hq, h.early⟩

/-- Settles O48: an empty queue takes no tick, and any other goes out word by word. -/
theorem queueGoesOutWordByWord : Obligations.QueueGoesOutWordByWord := by
  intro c s hh hen hu hd hclk hc hn
  have he : AwaitsWord (s.eng c) := ⟨hen, hu, hd, hclk, hc, hn⟩
  obtain ⟨e', hsends, he', hempty, hlast⟩ : ∃ e', Sends c s ((s.eng c).q.flatMap wordBits) (s.setEng c e') ∧
      AwaitsWord e' ∧ e'.q = [] ∧ ∀ w, (s.eng c).q.getLast? = some w → e'.dat = bitAt w 10 ∧ e'.osr = 0#11 := by
    cases hq : (s.eng c).q with
    | nil => exact ⟨s.eng c, by simpa using Sends.refl c s, he, hq, by simp⟩
    | cons w rest =>
      have hsends := sends_queue (c := c) hh he hq
      rw [setEng_eng] at hsends
      refine ⟨_, hsends, he.afterSlots _ _, rfl, fun v hv => ?_⟩
      obtain rfl : (w :: rest).getLast (List.cons_ne_nil w rest) = v := by
        simpa [List.getLast?_eq_some_getLast] using hv
      exact ⟨rfl, BitVec.ushiftRight_eq_zero le_rfl⟩
  obtain ⟨hticks, hsampled, hrising⟩ := hsends
  have hlen : 4 * ((s.eng c).q.flatMap wordBits).length = 44 * (s.eng c).q.length := by
    rw [length_flatMap_wordBits, ← Nat.mul_assoc]
  rw [hlen] at hticks hsampled hrising
  rw [length_flatMap_wordBits] at hrising
  refine ⟨hsampled, hrising, _, hticks, ?_⟩
  rw [eng_setEng_self]
  exact ⟨rfl, he'.quiescent hempty, he'.clk, hlast⟩

end Sys2Proof.Machine
end

section
/-! PROOFS. What can go wrong and what cannot (60_exceptions.md R130, R131, R137): every turn answers a next state but
the ENQ of a halted machine, and a halted machine does not move; and the divider of the timed refinement (R140). -/

namespace Sys2Proof.Machine

variable {c : Channel} {s t : State} {turn : Turn} {e e' : Engine} {m n : Nat}

/-! ### Every turn but an ENQ after a failed startup answers a next state -/

theorem sysClk_next (c : Channel) (s : State) : ∃ t, sysClk c s = .next t := by
  unfold sysClk
  split
  · exact ⟨s, rfl⟩
  · split
    · exact ⟨_, rfl⟩
    · exact tick_next ..

/-- An ENQ that does not wait and is not halted finds its channel started, since the whole startup is complete; so the
refusal of R111 that the producer can meet is that of a failed startup. -/
theorem produce_next_or_refused (s : State) :
    (∃ t, produce s = .next t) ∨
    ∃ c w more, s.halted = true ∧ s.script = .word c w :: more ∧ produce s = .refused (.enqHalted c) := by
  cases hs : s.script with
  | nil => exact .inl ⟨s, by simp [produce, hs]⟩
  | cons r more =>
    cases ha : awaitsStartup r s with
    | true => exact .inl ⟨s, by simp [produce, hs, ha]⟩
    | false =>
      cases r with
      | code code => exact .inl ⟨_, produce_of_exec_next hs ha (decode_codePort code) (exec_frame code s)⟩
      | word c w =>
        have hdecode := decode_bytes_of_word c w
        cases hh : s.halted with
        | true => exact .inr ⟨c, w, more, rfl, rfl, produce_of_exec_refused hs ha hdecode (exec_enq_halted hh)⟩
        | false =>
          have hdone : startupDone s = true := by simpa [awaitsStartup, hh] using ha
          obtain ⟨-, -, hruns⟩ := enqRefusedUnlessStarted c w s
          obtain ⟨t, ht⟩ := hruns hh (en_of_startupDone hdone c)
          exact .inl ⟨_, produce_of_exec_next hs ha hdecode ht⟩

theorem takeTurn_next_or_refused (turn : Turn) (s : State) :
    (∃ t, takeTurn turn s = .next t) ∨
    ∃ c w more, turn = .produce ∧ s.halted = true ∧ s.script = .word c w :: more ∧
      takeTurn turn s = .refused (.enqHalted c) := by
  cases turn with
  | startup ev => exact .inl ⟨_, rfl⟩
  | tick c => exact .inl (tick_next c s)
  | sysClk c => exact .inl (sysClk_next c s)
  | earlyPop c => exact .inl ⟨_, rfl⟩
  | produce =>
    rcases produce_next_or_refused s with h | ⟨c, w, more, hh, hs, h⟩
    · exact .inl h
    · exact .inr ⟨c, w, more, rfl, hh, hs, h⟩

/-- The outcomes of a step (R130, R131). -/
theorem step_next_or_refused (s : State) :
    (∃ t, step s = .next t) ∨
    ∃ c w more, (nextTurn s).1 = .produce ∧ s.halted = true ∧ s.script = .word c w :: more ∧
      step s = .refused (.enqHalted c) := by
  obtain ⟨turns, n, hn⟩ := nextTurn_frame s
  rw [step, hn]
  exact takeTurn_next_or_refused (nextTurn s).1 (s.takeOff turns n)

/-- Settles O29: a step has the two outcomes of `step_next_or_refused`, and neither is a fault. -/
theorem onlyEnqAfterFailedStartupIsRefused : Obligations.OnlyEnqAfterFailedStartupIsRefused := by
  refine ⟨fun s x h => ?_, fun s x h => ?_⟩
  · rcases step_next_or_refused s with ⟨t, ht⟩ | ⟨c, w, more, -, -, -, hr⟩
    · cases ht.symm.trans h
    · cases hr.symm.trans h
  · rcases step_next_or_refused s with ⟨t, ht⟩ | ⟨c, w, more, hturn, hh, hs, hr⟩
    · cases ht.symm.trans h
    · cases hr.symm.trans h
      exact ⟨c, w, more, hh, hs, hturn, rfl⟩

/-! ### A failed startup -/

/-- R137, R156: whichever event the turn names. -/
theorem startupTurn_of_not_startupOk (ev : StartupEvent) (ho : s.cfg.startupOk = false) (hh : s.halted = false) :
    startupTurn ev s = s.halt := by
  simp [startupTurn, hh, ho]

/-- No move is open to a halted machine (R28): each one asks for an awake engine, a startup agent that has not failed,
or a producer that has begun. -/
theorem TurnMove.eq_of_halted (hm : TurnMove turn s t) (hh : s.halted = true) : t = s := by
  have hasleep (c : Channel) : asleep c s ≠ false := by simp [asleep, hh]
  cases hm with
  | same => rfl
  | start c ht hrun => simp [hh] at hrun
  | raise ht hrun => simp [hh] at hrun
  | halt hrun => simp [hh] at hrun
  | tick c p e hp ha => exact absurd ha (hasleep c)
  | count c ha => exact absurd ha (hasleep c)
  | early c w rest ha => exact absurd ha (hasleep c)
  | framed code more ht hs hp => simp [producing, hh] at hp
  | enqueued c w more ht hs ha => exact absurd ha (hasleep c)

theorem step_of_halted (h : step s = .next t) (hh : s.halted = true) : ∃ turns n, t = s.takeOff turns n := by
  obtain ⟨turns, n, -, hm⟩ := step_move h
  exact ⟨turns, n, hm.eq_of_halted hh⟩

/-- Settles O40: a halted step that is not refused is the taking of the turn alone. -/
theorem failedStartupFreezesThePins : Obligations.FailedStartupFreezesThePins := by
  refine ⟨fun ev s => startupTurn_of_not_startupOk ev, fun s hh => ?_⟩
  rcases step_next_or_refused s with ⟨t, ht⟩ | ⟨c, w, more, hturn, -, hs, hr⟩
  · obtain ⟨turns, n, rfl⟩ := step_of_halted ht hh
    exact .inl ⟨turns, n, ht⟩
  · exact .inr ⟨c, w, more, hturn, hs, hr⟩

/-! ### The divider

Said, as the ticks are, of a state that holds the engine `e` in channel `c`. -/

theorem sysClk_count (hh : s.halted = false) (hen : e.en = true) (hp : e.phase + 1 < s.cfg.div) :
    sysClk c (s.setEng c e) = .next (s.setEng c { e with phase := e.phase + 1 }) := by
  simp [sysClk, asleep_setEng hh hen, hp]

theorem sysClk_wrap (hh : s.halted = false) (hen : e.en = true) (hp : s.cfg.div ≤ e.phase + 1) :
    sysClk c (s.setEng c e) = tick c (s.setEng c { e with phase := 0 }) := by
  simp [sysClk, asleep_setEng hh hen, hp]

theorem sysClks_succ (h : sysClk c s = .next t) : sysClks c (n + 1) s = sysClks c n t := by
  simp [sysClks, h]

theorem sysClks_add (n : Nat) (h : sysClks c m s = .next t) : sysClks c (m + n) s = sysClks c n t := by
  induction m generalizing s with
  | zero => cases h; simp
  | succ m ih =>
    obtain ⟨u, hu⟩ := sysClk_next c s
    rw [sysClks_succ hu] at h
    rw [Nat.add_right_comm, sysClks_succ hu, ih h]

/-- Periods that do not reach `DIV` advance the phase. -/
theorem sysClks_count (hh : s.halted = false) (hen : e.en = true) (hp : e.phase + n < s.cfg.div) :
    sysClks c n (s.setEng c e) = .next (s.setEng c { e with phase := e.phase + n }) := by
  induction n generalizing e with
  | zero => rfl
  | succ n ih =>
    have hp' : e.phase + 1 + n < s.cfg.div := by omega
    rw [sysClks_succ (sysClk_count hh hen (by omega)), ih (e := { e with phase := e.phase + 1 }) hen hp', Nat.add_assoc,
      Nat.add_comm 1 n]

/-- No tick writes the phase, which the divider alone counts. -/
theorem TickMove.phase (hm : TickMove e e') : e'.phase = e.phase := by
  cases hm with
  | refill w e₁ hd hu hc ht =>
    obtain ⟨-, -, -, -, -, -, -, hphase, -⟩ := takeWord_frame ht
    simpa using hphase
  | _ => rfl

/-- The `DIV` periods from one wrap of the divider to the next are one tick. -/
theorem sysClks_div (hh : s.halted = false) (hen : e.en = true) (hphase : e.phase = 0) (hdiv : 1 ≤ s.cfg.div)
    (h : tick c (s.setEng c e) = .next t) : sysClks c s.cfg.div (s.setEng c e) = .next t := by
  have hlast : s.cfg.div ≤ e.phase + (s.cfg.div - 1) + 1 := by omega
  have hwrap : sysClk c (s.setEng c { e with phase := e.phase + (s.cfg.div - 1) }) = .next t := by
    rw [sysClk_wrap (e := { e with phase := e.phase + (s.cfg.div - 1) }) hh hen hlast, ← hphase]
    exact h
  calc sysClks c s.cfg.div (s.setEng c e)
      = sysClks c (s.cfg.div - 1 + 1) (s.setEng c e) := by rw [Nat.sub_add_cancel hdiv]
    _ = sysClks c 1 (s.setEng c { e with phase := e.phase + (s.cfg.div - 1) }) :=
        sysClks_add 1 (sysClks_count hh hen (by omega))
    _ = .next t := sysClks_succ hwrap

/-- A tick leaves the engine awake and the divider at its wrap, so the ticks follow one another. -/
theorem sysClks_mul_div (hh : s.halted = false) (hen : e.en = true) (hphase : e.phase = 0) (hdiv : 1 ≤ s.cfg.div)
    (k : Nat) : sysClks c (k * s.cfg.div) (s.setEng c e) = ticks c k (s.setEng c e) := by
  induction k generalizing e with
  | zero => rw [Nat.zero_mul]; rfl
  | succ k ih =>
    obtain ⟨e₁, hm, ht⟩ := exists_tickMove (c := c) hh hen
    rw [Nat.succ_mul, Nat.add_comm, sysClks_add _ (sysClks_div hh hen hphase hdiv ht), ticks_succ ht]
    exact ih (hm.en.trans hen) (hm.phase.trans hphase)

/-- Settles O50: from phase 0 the periods are counted, and the ticks come one at each wrap. -/
theorem dividerMakesTicks : Obligations.DividerMakesTicks := by
  refine fun c s hh hen hphase hdiv => ⟨fun n hn => ?_, fun k => ?_⟩
  · have h := sysClks_count (c := c) (n := n) hh hen (by omega)
    rwa [setEng_eng, hphase, Nat.zero_add] at h
  · have h := sysClks_mul_div (c := c) hh hen hphase hdiv k
    rwa [setEng_eng] at h

end Sys2Proof.Machine
end

section
/-! PROOFS. Power-up, the three startup events and the ticks right after START (70_reset_and_hazards.md R150 to
R157). -/

namespace Sys2Proof.Machine

variable {c : Channel} {s t : State} {turn : Turn} {p : Params}

/-! ### The events of a startup that succeeds -/

theorem startupTurn_of_halted (ev : StartupEvent) (hh : s.halted = true) : startupTurn ev s = s := by
  simp [startupTurn, hh]

/-- What an event does when the agent may run it: the match of `startupTurn`. -/
def runEvent : StartupEvent → State → State
  | .start c => startChannel c
  | .ctlHigh => ctlHigh

theorem runEvent_start (c : Channel) (s : State) : runEvent (.start c) s = startChannel c s := rfl

theorem runEvent_ctlHigh (s : State) : runEvent .ctlHigh s = ctlHigh s := rfl

theorem startupTurn_of_startupOk (ev : StartupEvent) (hh : s.halted = false) (ho : s.cfg.startupOk = true) :
    startupTurn ev s = runEvent ev s := by
  cases ev <;> simp [startupTurn, hh, ho, runEvent]

theorem startChannel_of_not_en (hen : (s.eng c).en = false) : startChannel c s = s.setEng c (started (s.eng c)) := by
  simp [startChannel, hen]

theorem startChannel_of_en (hen : (s.eng c).en = true) : startChannel c s = s := if_pos hen

theorem ctlHigh_of_not_done (hd : s.ctlDone = false) : ctlHigh s = s.raiseCtl := by
  simp [ctlHigh, hd]

/-- Settles O38: START writes `started` to a channel that is not started, and nothing to one that is. -/
theorem startEvent : Obligations.StartEvent := by
  intro c s hh ho
  rw [startupTurn_of_startupOk _ hh ho, runEvent_start]
  exact ⟨startChannel_of_not_en, startChannel_of_en⟩

/-- The one move that writes the control line is open only until CTLHIGH has happened (R152). -/
theorem TurnMove.ctl_of_done (hm : TurnMove turn s t) (hd : s.ctlDone = true) :
    t.ctl = s.ctl ∧ t.ctlDone = true := by
  cases hm with
  | raise ht hh ho hd' => simp [hd] at hd'
  | _ => simp [hd]

/-- Settles O39: the event by its equation, and every later step by its move. -/
theorem ctlHighOnceAndForAll : Obligations.CtlHighOnceAndForAll := by
  refine ⟨fun s hh ho hd => ?_, fun s t hd h => ?_⟩
  · rw [startupTurn_of_startupOk _ hh ho, runEvent_ctlHigh, ctlHigh_of_not_done hd]
    rfl
  · obtain ⟨turns, n, -, hm⟩ := step_move h
    exact hm.ctl_of_done hd

/-! ### The events commute -/

theorem raiseCtl_setEng (s : State) (c : Channel) (e : Engine) : (s.setEng c e).raiseCtl = s.raiseCtl.setEng c e := by
  cases c <;> rfl

/-- The two STARTs write different channels. -/
theorem startChannel_kbd_mse (s : State) :
    startChannel .kbd (startChannel .mse s) = startChannel .mse (startChannel .kbd s) := by
  cases hkbd : s.kbd.en <;> cases hmse : s.mse.en <;> simp [startChannel, hkbd, hmse, setEng_comm]

theorem startChannel_comm (c c' : Channel) (s : State) :
    startChannel c (startChannel c' s) = startChannel c' (startChannel c s) := by
  cases c <;> cases c'
  · rfl
  · exact startChannel_kbd_mse s
  · exact (startChannel_kbd_mse s).symm
  · rfl

/-- START writes a channel and CTLHIGH the control line. -/
theorem ctlHigh_startChannel (c : Channel) (s : State) : ctlHigh (startChannel c s) = startChannel c (ctlHigh s) := by
  cases hen : (s.eng c).en <;> cases hd : s.ctlDone <;> simp [startChannel, ctlHigh, hen, hd, raiseCtl_setEng]

theorem runEvent_comm (ev ev' : StartupEvent) (s : State) :
    runEvent ev' (runEvent ev s) = runEvent ev (runEvent ev' s) := by
  cases ev with
  | start c =>
    cases ev' with
    | start c' => exact startChannel_comm c' c s
    | ctlHigh => exact ctlHigh_startChannel c s
  | ctlHigh =>
    cases ev' with
    | start c => exact (ctlHigh_startChannel c s).symm
    | ctlHigh => rfl

/-- With `STARTUP_OK` true, an event of the agent leaves it able to run the next. -/
theorem startupTurn_startupTurn (ev ev' : StartupEvent) (hh : s.halted = false) (ho : s.cfg.startupOk = true) :
    startupTurn ev' (startupTurn ev s) = runEvent ev' (runEvent ev s) := by
  obtain ⟨hhalted, hcfg⟩ := TurnMove.keeps (takeTurn_move (turn := .startup ev) rfl) ho
  rw [startupTurn_of_startupOk ev' (hhalted.trans hh) (hcfg ▸ ho), startupTurn_of_startupOk ev hh ho]

/-- Two turns of the startup agent commute in every state: after the halt of a failed startup neither does anything. -/
theorem startupTurn_comm (ev ev' : StartupEvent) (s : State) :
    startupTurn ev' (startupTurn ev s) = startupTurn ev (startupTurn ev' s) := by
  cases hh : s.halted with
  | true => rw [startupTurn_of_halted ev hh, startupTurn_of_halted ev' hh, startupTurn_of_halted ev hh]
  | false =>
    cases ho : s.cfg.startupOk with
    | false =>
      rw [startupTurn_of_not_startupOk ev ho hh, startupTurn_of_not_startupOk ev' ho hh,
        startupTurn_of_halted ev rfl, startupTurn_of_halted ev' rfl]
    | true => rw [startupTurn_startupTurn ev ev' hh ho, startupTurn_startupTurn ev' ev hh ho, runEvent_comm]

/-- The order that starts the keyboard, then the mouse, then raises the control line (R152). -/
theorem startup_in_order (ho : p.startupOk = true) :
    [.start .kbd, .start .mse, .ctlHigh].foldl (fun s ev => startupTurn ev s) (State.powerUp p) =
      { State.powerUp p with
        kbd := started (Engine.powerUp p .kbd), mse := started (Engine.powerUp p .mse), ctl := 1#1,
        ctlDone := true } := by
  simp only [List.foldl_cons, List.foldl_nil]
  rw [startupTurn_of_startupOk (.start .kbd) rfl ho, runEvent_start, startChannel_of_not_en rfl,
    startupTurn_of_startupOk (.start .mse) rfl ho, runEvent_start, startChannel_of_not_en rfl,
    startupTurn_of_startupOk .ctlHigh rfl ho, runEvent_ctlHigh, ctlHigh_of_not_done rfl]
  rfl

/-- Settles O41: the turns commute, so every order ends where one of them does. -/
theorem startupOrderDoesNotMatter : Obligations.StartupOrderDoesNotMatter := by
  intro p evs ho hperm
  rw [hperm.foldl_eq' fun ev _ ev' _ s => startupTurn_comm ev ev' s]
  exact startup_in_order ho

/-! ### The first ticks -/

/-- A tick that leaves the clock high shows no falling edge. -/
theorem sampled_succ_of_clk_high (n : Nat) (h : tick c s = .next t) (hclk : (t.eng c).clk = 1#1) :
    sampled c (n + 1) s = sampled c n t := by
  simp [sampled, h, falls_eq_false_of_clk_high hclk]

/-- Settles O43: the first tick is CLKH, which raises the clock, and the engine it leaves is stalled and rests. -/
theorem firstTicksAfterStart : Obligations.FirstTicksAfterStart := by
  intro c s n hh hen hu hd hc hq hn hpos
  obtain ⟨n, rfl⟩ : ∃ m, n = m + 1 := ⟨n - 1, by omega⟩
  have hclkh := tick_clkh (c := c) (s := s) hh hen hd hu
  rw [setEng_eng] at hclkh
  have hstalled : stalled ((s.setEng c { s.eng c with clk := 1#1, upc := 1 }).eng c) = true := by
    rw [eng_setEng_self]
    exact stalled_iff.2 ⟨hen, hd, rfl, hc, starved_iff.2 ⟨hq, hn⟩⟩
  obtain ⟨hrest, hsampled, -⟩ := stalledEngineRests c _ n ((setEng_halted ..).trans hh) hstalled
  rw [ticks_succ hclkh, sampled_succ_of_clk_high n hclkh (by simp)]
  exact ⟨hrest, hsampled⟩

/-! ### Power-up -/

theorem powerUp_eng (p : Params) (c : Channel) : (State.powerUp p).eng c = Engine.powerUp p c := by
  cases c <;> rfl

theorem params_wf : Config.params.wf = true := by
  simp [Params.wf, Config.params]

/-- Settles O42: the pins of a channel are levels of the engine it powers up with. -/
theorem resetValues : Obligations.ResetValues := by
  refine ⟨fun c => ?_, rfl, rfl, fun c => ?_, fun c => ?_, rfl, rfl⟩ <;>
    simp only [State.reset, pin, powerUp_eng] <;> rfl

/-- A channel at power-up is not started, holds its pins at their reset levels and has begun no word (R150). -/
theorem Engine.channelInv_powerUp (p : Params) (c : Channel) : (Engine.powerUp p c).ChannelInv p c where
  started_ok := nofun
  unstarted_ok _ := ⟨rfl, rfl⟩
  dat_until_begun _ := rfl
  failed_startup _ := rfl

theorem State.inv_powerUp (hp : p.wf = true) : (State.powerUp p).Inv := by
  have hshared : (State.powerUp p).SharedInv := ⟨hp, nofun, fun _ => rfl, fun _ => rfl, nofun⟩
  refine State.inv_iff.2 ⟨hshared, fun c => ?_⟩
  rw [powerUp_eng]
  exact Engine.channelInv_powerUp p c

/-- Settles O59: every channel powers up untouched, and reset is a power-up with legal parameters. -/
theorem resetMeetsTheInvariant : Obligations.ResetMeetsTheInvariant :=
  ⟨fun _ => State.inv_powerUp, State.inv_powerUp params_wf⟩

end Sys2Proof.Machine
end

section
/-! PROOFS. A table word placed after reset (30_encoding.md section 3; log 2): where the decoder's instruction is
placed, and that the next step fetches and runs it there. -/

namespace Sys2Proof.Machine

variable {s : State} {nbits n : Nat} {i : Instr} {r : Request}

/-! ### Where a table word is placed -/

/-- A table word that is read as an instruction is presented as its encoding. -/
theorem tableEncoded_of_decodeTableWord (h : decodeTableWord nbits n = some i) :
    tableEncoded nbits n = some (encode i) := by
  unfold decodeTableWord at h
  split at h
  · cases h
  next e he =>
    cases hd : decode e.src e.bytes with
    | error x => simp [hd, Except.toOption] at h
    | ok j =>
      obtain rfl : j = i := by simpa [hd, Except.toOption] using h
      rw [he, encodingIsUnique e.src e.bytes j hd]

/-- A table word of a micro-step is read at the keyboard engine's store (log 9). -/
theorem channel_of_tableEncoded {e : Encoded} {c : Channel} (h : tableEncoded nbits n = some e)
    (hsrc : e.src = .store c) : c = .kbd := by
  unfold tableEncoded at h
  split_ifs at h <;> cases h <;> cases hsrc
  rfl

/-- The place of a word that decodes is one where its own instruction is fetched: an index of the keyboard engine's
store, or the port of a request. -/
theorem withFetchWord_cases (s : State) (h : decodeTableWord nbits n = some i) :
    (∃ k, decode (.store .kbd) (selectorBytes k) = .ok i ∧ s.withFetchWord nbits n = placeStep k s) ∨
    (∃ r : Request, decode r.source r.bytes = .ok i ∧ s.withFetchWord nbits n = placeRequest r s) := by
  have henc := tableEncoded_of_decodeTableWord h
  simp only [State.withFetchWord, placeTableWord, h]
  cases i with
  | clkh c =>
    obtain rfl := channel_of_tableEncoded henc rfl
    exact .inl ⟨0, rfl, rfl⟩
  | shift c =>
    obtain rfl := channel_of_tableEncoded henc rfl
    exact .inl ⟨1, rfl, rfl⟩
  | clkl c =>
    obtain rfl := channel_of_tableEncoded henc rfl
    exact .inl ⟨2, rfl, rfl⟩
  | frame code => exact .inr ⟨.code code, decode_codePort code, rfl⟩
  | enq c w => exact .inr ⟨.word c w, decode_bytes_of_word c w, rfl⟩

/-! ### A placed micro-step -/

/-- The tick of a placed micro-step runs it, and leaves the script. -/
theorem step_placeStep (s : State) {k : Fin 3} (hi : decode (.store .kbd) (selectorBytes k) = .ok i) :
    ∃ t, exec i ((placeStep k s).takeOff [] s.drawn) = .next t ∧
      step (placeStep k s) = .next { t with script := s.script } := by
  have htick : tick .kbd ((placeStep k s).takeOff [] s.drawn) = exec i ((placeStep k s).takeOff [] s.drawn) :=
    tick_of_decode rfl rfl rfl hi
  have hstep : step (placeStep k s) = tick .kbd ((placeStep k s).takeOff [] s.drawn) :=
    step_of_schedule (turn := .tick .kbd) rfl
  obtain ⟨t, ht, -⟩ := tick_awake .kbd ((placeStep k s).takeOff [] s.drawn) rfl
  have hexec := htick.symm.trans ht
  obtain ⟨-, -, -, -, hscript, -⟩ := exec_keepsShared hexec
  refine ⟨t, hexec, ?_⟩
  rw [hstep, ht, show s.script = t.script from hscript.symm]

/-! ### A placed request -/

theorem producing_placeRequest (r : Request) (s : State) : producing (placeRequest r s) = true := rfl

theorem placeRequest_eng (r : Request) (s : State) (c : Channel) :
    (placeRequest r s).eng c = { s.eng c with en := true } := by
  cases c <;> rfl

/-- A request whose ENQ has room is run by any producer that has begun: FRAME always, ENQ by a push (R85, R111). -/
theorem exec_request_next (hp : producing s = true) (hi : decode r.source r.bytes = .ok i) (hf : held r s = false) :
    ∃ t, exec i s = .next t := by
  cases r with
  | code code =>
    cases (decode_codePort code).symm.trans hi
    exact ⟨_, exec_frame code s⟩
  | word c w =>
    cases (decode_bytes_of_word c w).symm.trans hi
    obtain ⟨hh, hdone⟩ := producing_iff.1 hp
    exact ⟨_, exec_enq_push hh (en_of_startupDone hdone c) (full_eq_false_iff.1 hf)⟩

/-- The producer's turn at a placed request with room runs it, and retires it. -/
theorem step_placeRequest (hi : decode r.source r.bytes = .ok i) (hf : held r (placeRequest r s) = false) :
    ∃ t, exec i ((placeRequest r s).takeOff [] s.drawn) = .next t ∧
      step (placeRequest r s) = .next { t with script := [] } := by
  have hp := producing_placeRequest r s
  obtain ⟨t, ht⟩ : ∃ t, exec i ((placeRequest r s).takeOff [] s.drawn) = .next t :=
    exec_request_next hp hi ((held_takeOff r [] s.drawn).trans hf)
  have hstep := step_of_exec_next hp rfl rfl hi ht
  rw [hf] at hstep
  exact ⟨t, ht, hstep⟩

/-- After reset the queues are empty and a queue has room for an entry (R4, R150). -/
theorem held_placeRequest_reset (r : Request) : held r (placeRequest r State.reset) = false := by
  cases r with
  | code code => rfl
  | word c w =>
    have hempty : ((placeRequest (.word c w) State.reset).eng c).q = [] := by
      rw [placeRequest_eng, State.reset, powerUp_eng]
      rfl
    refine full_eq_false_iff.2 ?_
    rw [hempty]
    exact Nat.succ_pos Config.qDepthPred

/-- Settles O57: the word stands where its own instruction is fetched, as a micro-step or as a request with room. -/
theorem placedWordRunsFirst : Obligations.PlacedWordRunsFirst := by
  intro nbits n i h
  rcases withFetchWord_cases State.reset h with ⟨k, hi, hplaced⟩ | ⟨r, hi, hplaced⟩ <;> rw [hplaced]
  · exact step_placeStep State.reset hi
  · exact step_placeRequest hi (held_placeRequest_reset r)

end Sys2Proof.Machine
end
